-- ==== Sys2Proof/Word.lean ====
section
/-! DEFINITION. The data word of the LS-8 core: an unsigned byte (spec/00_scope.md R6, R8). -/

namespace Sys2Proof

/-- A register's, a memory cell's or an operand's contents: 8 bits, unsigned (R6, R8). -/
abbrev Byte := BitVec 8

/-- The index of a general register, R0 to R7 (spec/10_state.md R10). -/
abbrev RegIndex := Fin 8

end Sys2Proof
end

