-- ==== Sys2Proof/Syntax.lean ====
section
/-! DEFINITION. The instructions of the LS-8 core, one constructor for each row of spec/opcode_table.json
(spec/30_encoding.md R43). An operand is a whole byte (R42), so each operand is a `Byte` at every value the encoding admits: an
index of 8 or more is an instruction too, and raises `InvalidRegister` when it runs (spec/10_state.md R12). -/

namespace Sys2Proof

inductive Instr where
  /-- HLT, halt (spec/41_halt_and_output.md R61). -/
  | hlt
  /-- LDI r, imm8, load immediate (spec/42_load_and_alu.md R64). -/
  | ldi (r imm : Byte)
  /-- PRN r, print register (spec/41_halt_and_output.md R62). -/
  | prn (r : Byte)
  /-- MUL ra, rb, multiply (spec/42_load_and_alu.md R65). -/
  | mul (ra rb : Byte)
  /-- ADD ra, rb, add (spec/42_load_and_alu.md R66). -/
  | add (ra rb : Byte)
  /-- PUSH r, push register (spec/43_stack.md R68). -/
  | push (r : Byte)
  /-- POP r, pop into register (spec/43_stack.md R69). -/
  | pop (r : Byte)
  /-- CALL r, call the subroutine at the address in a register (spec/44_call_return.md R71). -/
  | call (r : Byte)
  /-- RET, return from subroutine (spec/44_call_return.md R72). -/
  | ret
deriving DecidableEq, Repr

end Sys2Proof
end

