-- ==== Sys2Proof/WellFormed.lean ====
section
/-! DEFINITION. Well-formed instructions: every register operand names one of the eight registers (spec/10_state.md R12). An
ill-formed instruction is encodable and has a meaning: it raises `InvalidRegister` (spec/60_exceptions.md R76). -/

namespace Sys2Proof

/-- The register operands, in the order the handlers check them: operand a before operand b (spec/60_exceptions.md R76, R82).
LDI's operand b is an immediate and is not among them. -/
def Instr.registerOperands : Instr → List Byte
  | .hlt => []
  | .ldi r _ => [r]
  | .prn r => [r]
  | .mul ra rb => [ra, rb]
  | .add ra rb => [ra, rb]
  | .push r => [r]
  | .pop r => [r]
  | .call r => [r]
  | .ret => []

/-- An operand byte that selects a register: an index in [0, 8) (spec/10_state.md R12). -/
def namesRegister (r : Byte) : Bool := decide (r.toNat < 8)

def Instr.wellFormed (i : Instr) : Bool := i.registerOperands.all namesRegister

end Sys2Proof
end

