-- ==== Sys2Proof/Decode.lean ====
section
/-! DEFINITION. The opcode map, the decoder (total on any bytes, rejecting by name) and the encoder, all from the one table of
spec/30_encoding.md R43; then the two helpers the host reads the decoder with. -/

namespace Sys2Proof

/-! ### The opcode map -/

/-- The nine instructions of the opcode map, without their operands: what `Lookup(ir)` names (spec/40_cycle.md R54). -/
inductive Op where
  | hlt
  | ldi
  | prn
  | mul
  | add
  | push
  | pop
  | call
  | ret
deriving DecidableEq, Repr

/-- A row of the opcode map (R43): the opcode byte, the number of operand bytes the handler reads (`Used(op)`,
spec/40_cycle.md), and the control-flow property, a field of the table's entry and not of the byte (R44). -/
structure OpRow where
  code        : Byte
  used        : Nat
  controlFlow : Bool
deriving DecidableEq, Repr

/-- The table of R43, binary values as the source gives them. -/
def Op.row : Op → OpRow
  | .hlt  => ⟨0b00000001, 0, false⟩
  | .ldi  => ⟨0b10000010, 2, false⟩
  | .prn  => ⟨0b01000111, 1, false⟩
  | .mul  => ⟨0b10100010, 2, false⟩
  | .add  => ⟨0b10100000, 2, false⟩
  | .push => ⟨0b01000101, 1, false⟩
  | .pop  => ⟨0b01000110, 1, false⟩
  | .call => ⟨0b01010000, 1, true⟩
  | .ret  => ⟨0b00010001, 0, true⟩

def Op.all : List Op := [.hlt, .ldi, .prn, .mul, .add, .push, .pop, .call, .ret]

/-- `Lookup(ir)`: the whole opcode byte compared with the nine values; `none` is the unknown opcode (R43, R45;
spec/40_cycle.md R54). -/
def lookup (ir : Byte) : Option Op := Op.all.find? fun op => op.row.code == ir

/-- The operand count an opcode byte gives, its bits 7:6 (R40). -/
def operandCount (opcode : Byte) : Nat := (opcode >>> 6).toNat

/-- How far the generic advance moves pc: `(opcode >> 6) + 1` (R47; spec/40_cycle.md R57). -/
def advanceLength (opcode : Byte) : Nat := operandCount opcode + 1

/-! ### The decoder -/

/-- Why the decoder refuses: the byte is in no row of the map, or an operand the instruction uses is not there. -/
inductive DecodeError where
  /-- The opcode byte is not in the map (R45). -/
  | unknownOpcode (ir : Byte)
  /-- The instruction uses operand a, and there is no byte after the opcode. -/
  | operandAAbsent
  /-- The instruction uses operand b, and there is no second byte after the opcode. -/
  | operandBAbsent
  /-- There is no opcode byte. -/
  | opcodeAbsent
deriving DecidableEq, Repr

/-- The byte of operand a, where the handler uses it. -/
def operandA : Option Byte → Except DecodeError Byte
  | some x => .ok x
  | none   => .error .operandAAbsent

/-- The byte of operand b, where the handler uses it. -/
def operandB : Option Byte → Except DecodeError Byte
  | some x => .ok x
  | none   => .error .operandBAbsent

/-- The instruction of an opcode, with the operands it uses taken from the latches, a before b (R41; the order of
spec/60_exceptions.md R82). -/
def Op.withOperands (op : Op) (a b : Option Byte) : Except DecodeError Instr :=
  match op with
  | .hlt  => .ok .hlt
  | .ldi  => do return .ldi (← operandA a) (← operandB b)
  | .prn  => do return .prn (← operandA a)
  | .mul  => do return .mul (← operandA a) (← operandB b)
  | .add  => do return .add (← operandA a) (← operandB b)
  | .push => do return .push (← operandA a)
  | .pop  => do return .pop (← operandA a)
  | .call => do return .call (← operandA a)
  | .ret  => .ok .ret

/-- Decode, from the opcode byte and the two operand latches (spec/40_cycle.md R54). Which instruction it is depends on `ir`
alone. -/
def decode (ir : Byte) (a b : Option Byte) : Except DecodeError Instr :=
  match lookup ir with
  | none    => .error (.unknownOpcode ir)
  | some op => op.withOperands a b

/-- Decode the instruction at the head of a sequence of bytes: opcode, operand a, operand b (R39). -/
def decodeBytes : List Byte → Except DecodeError Instr
  | []         => .error .opcodeAbsent
  | ir :: rest => decode ir rest[0]? rest[1]?

/-! ### The encoder -/

/-- The row of the opcode map an instruction belongs to. -/
def Instr.op : Instr → Op
  | .hlt     => .hlt
  | .ldi _ _ => .ldi
  | .prn _   => .prn
  | .mul _ _ => .mul
  | .add _ _ => .add
  | .push _  => .push
  | .pop _   => .pop
  | .call _  => .call
  | .ret     => .ret

/-- The operand bytes, operand a first (R41). -/
def Instr.operandBytes : Instr → List Byte
  | .hlt       => []
  | .ldi r imm => [r, imm]
  | .prn r     => [r]
  | .mul ra rb => [ra, rb]
  | .add ra rb => [ra, rb]
  | .push r    => [r]
  | .pop r     => [r]
  | .call r    => [r]
  | .ret       => []

/-- The bytes of an instruction, at increasing addresses (R39, R41). -/
def encode (i : Instr) : List Byte := i.op.row.code :: i.operandBytes

/-! ### Reading a word of the opcode table -/

/-- Byte `k` of an instruction given as one number, the first byte lowest; the bits from `nbits` up are 0. -/
def byteOfWord (nbits w k : Nat) : Byte := BitVec.ofNat 8 (w % 2 ^ nbits / 256 ^ k)

/-- The instruction's bytes as memory holds them, up to the longest instruction (three bytes, R39). -/
def bytesOfWord (nbits w : Nat) : List Byte := [byteOfWord nbits w 0, byteOfWord nbits w 1, byteOfWord nbits w 2]

/-- The instruction the decoder reads from the word `w` of `nbits` bits, numbered as spec/opcode_table.json numbers them. -/
def decodeTableWord (nbits w : Nat) : Option Instr := (decodeBytes (bytesOfWord nbits w)).toOption

end Sys2Proof
end

