-- ==== Sys2Proof/Config.lean ====
section
/-! DEFINITION. The two configuration parameters of the core (spec/00_scope.md R4) and its fixed sizes and addresses (R6;
spec/20_memory.md R31). The core has no implementation-defined constant beside them, and no free value. -/

namespace Sys2Proof

/-- `UNKNOWN_OPCODE_POLICY`: what an opcode byte outside the opcode map does (R4; spec/40_cycle.md R55). -/
inductive UnknownOpcodePolicy where
  | ignore
  | fault
deriving DecidableEq, Repr

/-- `OPERAND_OVERRUN_POLICY`: what an operand fetch beyond address 255 does (R4; spec/40_cycle.md R53). -/
inductive OperandOverrunPolicy where
  | faultIfUsed
  | faultAlways
deriving DecidableEq, Repr

/-- The configuration the host gives the core when it constructs it, fixed for the run (R4; spec/10_state.md R23). -/
structure Config where
  unknownOpcode  : UnknownOpcodePolicy
  operandOverrun : OperandOverrunPolicy
deriving DecidableEq, Repr

/-- The defaults of R4: `Ignore` (the reference behaviour) and `FaultIfUsed`. -/
def Config.default : Config := ⟨.ignore, .faultIfUsed⟩

/-- The number of memory cells; addresses are 0 to 255 (R6; spec/20_memory.md R25). -/
abbrev memSize : Nat := 256

/-- Where the program is loaded and where the first fetch reads (spec/20_memory.md R31). -/
abbrev entryPoint : Nat := 0

/-- The stack pointer is register 7 (spec/10_state.md R13). -/
abbrev spIndex : RegIndex := 7

/-- The stack pointer's reset value (R6; spec/20_memory.md R31). -/
abbrev spReset : Byte := 244

end Sys2Proof
end

