-- ==== Sys2Proof/Machine/State.lean ====
section
/-! DEFINITION. The state of the core (spec/10_state.md), the reasons a step can have no next state, and the state after reset. -/

namespace Sys2Proof.Machine

/-- The memory array, spec/10_state.md R20: the list of the cells that do not hold the reset content 0, by strictly rising
address. `Memory.wf` (Machine/Ops.lean) is the canonical form. -/
abbrev Memory := List Host.Cell

/-- A fault of the core: its kind with its information record (spec/60_exceptions.md R74). Raising one is a NEXT state, whose
status is `faulted` (R80; log 3). -/
inductive CoreError where
  /-- `OutOfRange(addr)`: an address of 256 or more (R75). -/
  | outOfRange (addr : Nat)
  /-- `InvalidRegister(i)`: a register operand byte of 8 or more (R76). -/
  | invalidRegister (i : Byte)
  /-- `ProgramTooLarge(n)`: the load port was given a program that does not fit (R77). -/
  | programTooLarge (n : Nat)
  /-- `UnsupportedOperation(name)`: raised by nothing in this core (R78). -/
  | unsupportedOperation (name : String)
  /-- `UnknownOpcode(ir, pc)`: an opcode byte outside the map, with its address, under the policy `Fault` (R79). -/
  | unknownOpcode (ir : Byte) (pc : Nat)
deriving DecidableEq, Repr

/-- The run status (spec/10_state.md R17). -/
inductive Status where
  | running
  | halted
  | faulted (e : CoreError)
deriving DecidableEq, Repr

/-- The whole state of the core, the tuple of spec/10_state.md, with the configuration beside it. -/
structure State where
  /-- The configuration (spec/00_scope.md R4). The spec passes it to every step beside the state; the model carries it here,
  and no step changes it (log 1). -/
  cfg    : Config
  /-- The memory array (R20). -/
  mem    : Memory
  /-- The register file R0 to R7 (R10); R7 is the stack pointer (R13). -/
  regs   : Vector Byte 8
  /-- The program counter, a natural number that does not wrap (R15). -/
  pc     : Nat
  /-- The flags register, reserved: no instruction reads or writes it (R16). -/
  fl     : Byte
  /-- The run status (R17). -/
  status : Status
  /-- The instruction register, the last-fetched opcode byte (R18). -/
  ir     : Byte
  /-- The latch of operand a, `none` where it holds `Absent` (R19). -/
  a      : Option Byte
  /-- The latch of operand b, `none` where it holds `Absent` (R19). -/
  b      : Option Byte
  /-- The bytes PRN has emitted, oldest first (R21). -/
  out    : List Byte
  /-- The diagnostic log: `(pc, ir)` of each ignored unknown opcode (spec/60_exceptions.md R90). -/
  diag   : List (Nat × Byte)
deriving DecidableEq, Repr

/-- Why a state has no step: its status is final (spec/40_cycle.md R51; log 4). -/
inductive Fault where
  /-- The core has halted. Raised by `step` in a state whose status is `halted`. Safe: the spec gives that state no step. -/
  | halted
  /-- The core has faulted. Raised by `step` in a state whose status is `faulted e`. Safe: the spec gives that state no step. -/
  | faulted (e : CoreError)
deriving DecidableEq, Repr

/-- Why an instruction has no meaning. No arm of `exec` answers one: every instruction of the opcode table is modelled. -/
inductive Refusal where
  /-- The instruction of that mnemonic has no meaning yet. Raised by no arm now. Safe: a refused step proves nothing. -/
  | notModelled (mnemonic : String)
deriving DecidableEq, Repr

/-- The core right after the host constructs it with a configuration, every component at the value of spec/10_state.md R24
(`fl`, `ir` and the latches by decisions D10 and D11: log 6, log 7). -/
def State.construct (cfg : Config) : State where
  cfg    := cfg
  mem    := []
  regs   := #v[0, 0, 0, 0, 0, 0, 0, spReset]
  pc     := entryPoint
  fl     := 0
  status := .running
  ir     := 0
  a      := none
  b      := none
  out    := []
  diag   := []

/-- The machine after reset: construction (spec/70_reset_and_hazards.md R91) with the default configuration
(spec/00_scope.md R4; log 2). -/
def State.reset : State := State.construct Config.default

end Sys2Proof.Machine
end

