-- ==== Sys2Proof/Machine/Ops.lean ====
section
/-! DEFINITION. The shared operations over memory, registers, the program counter and the output port, the entry into a fault,
and the end of an instruction (spec/00_scope.md R9, spec/20_memory.md, spec/60_exceptions.md R80). -/

namespace Sys2Proof.Machine

/-! ### The memory array -/

/-- What an unlisted address reads as: the reset content of memory (spec/10_state.md R24). -/
def unlistedByte : Byte := 0

/-- The byte of a cell. -/
def Memory.read : Memory → Nat → Byte
  | [], _ => unlistedByte
  | (k, v) :: m, addr => if k = addr then v else Memory.read m addr

/-- The cell at `addr` holding `v`, in front of the cells above it; not listed where `v` is what an unlisted cell reads as. -/
def Memory.cons (addr : Nat) (v : Byte) (m : Memory) : Memory :=
  if v = unlistedByte then m else (addr, v) :: m

/-- Set the byte of a cell, in the canonical form. -/
def Memory.write : Memory → Nat → Byte → Memory
  | [], addr, v => Memory.cons addr v []
  | (k, w) :: m, addr, v =>
    if addr < k then Memory.cons addr v ((k, w) :: m)
    else if addr = k then Memory.cons addr v m
    else (k, w) :: Memory.write m addr v

/-- Set consecutive cells from `addr` up; the bytes that would lie at 256 or above have no cell and are not written. -/
def Memory.writeList : Memory → Nat → List Byte → Memory
  | m, _, [] => m
  | m, addr, v :: vs => Memory.writeList (if addr < memSize then Memory.write m addr v else m) (addr + 1) vs

/-- The canonical form from address `lo` on: addresses strictly rising and inside the array, no listed value equal to what an
unlisted address reads as. -/
def Memory.wfFrom : Nat → Memory → Bool
  | _, [] => true
  | lo, (k, v) :: m => decide (lo ≤ k) && decide (k < memSize) && decide (v ≠ unlistedByte) && Memory.wfFrom (k + 1) m

/-- The canonical form of memory. -/
def Memory.wf (m : Memory) : Bool := Memory.wfFrom 0 m

/-! ### Registers, the program counter, memory and the output port, on the state -/

/-- `R[i]` (spec/00_scope.md R9). -/
def State.reg (s : State) (i : RegIndex) : Byte := s.regs[i]

/-- `R[i] <- v`: the value is stored modulo 256, whatever integer it is, R7 like every other register (spec/10_state.md R11). -/
def State.setReg (s : State) (i : RegIndex) (v : Int) : State := { s with regs := s.regs.set i (BitVec.ofInt 8 v) }

/-- `SP`, the register R7 (spec/10_state.md R13). -/
def State.sp (s : State) : Byte := s.reg spIndex

/-- `pc <- t` (spec/00_scope.md R9). -/
def State.setPc (s : State) (t : Nat) : State := { s with pc := t }

/-- The byte of one memory cell. -/
def State.readByte (s : State) (addr : Nat) : Byte := Memory.read s.mem addr

/-- `MemRead(addr, 1)`: the cell's byte, or `OutOfRange(addr)` at 256 or above (spec/20_memory.md R26). -/
def State.memRead (s : State) (addr : Nat) : Except CoreError Byte :=
  if addr < memSize then .ok (s.readByte addr) else .error (.outOfRange addr)

/-- The state with the byte of one memory cell set. -/
def State.setByte (s : State) (addr : Nat) (v : Byte) : State := { s with mem := Memory.write s.mem addr v }

/-- `MemWrite(addr, 1, v)`: the one cell set, or `OutOfRange(addr)` at 256 or above (spec/20_memory.md R27). -/
def State.memWrite (s : State) (addr : Nat) (v : Byte) : Except CoreError State :=
  if addr < memSize then .ok (s.setByte addr v) else .error (.outOfRange addr)

/-- `Emit(v)`: append a byte to the output port; it never blocks and never fails (spec/41_halt_and_output.md R62, R63). -/
def State.emit (s : State) (v : Byte) : State := { s with out := s.out ++ [v] }

/-- `halted <- true` (spec/00_scope.md R9; spec/10_state.md R17). -/
def State.halt (s : State) : State := { s with status := .halted }

/-- Append `(pc, ir)` to the diagnostic log (spec/60_exceptions.md R90). -/
def State.logUnknown (s : State) : State := { s with diag := s.diag ++ [(s.pc, s.ir)] }

/-! ### Taking a fault, and the end of an instruction -/

/-- The numeric code of a fault kind, for a host that reports a number (spec/60_exceptions.md R74; decision D6: log 19). -/
def CoreError.code : CoreError → Nat
  | .outOfRange _           => 1
  | .invalidRegister _      => 2
  | .programTooLarge _      => 3
  | .unsupportedOperation _ => 4
  | .unknownOpcode _ _      => 5

/-- The entry into a fault: `status <- Faulted(kind, info)` and no other change. Nothing is saved elsewhere and control goes
nowhere; there is no return from it (spec/60_exceptions.md R80, R81; spec/40_cycle.md R58; log 3). -/
def State.raise (s : State) (e : CoreError) : State := { s with status := .faulted e }

/-- The generic advance, `pc <- pc + (ir >> 6) + 1`, not reduced modulo 256 (spec/40_cycle.md R57). -/
def State.advance (s : State) (opcode : Byte) : State := s.setPc (s.pc + advanceLength opcode)

/-- The advance step of the cycle: the generic advance, which the control-flow instructions skip (spec/40_cycle.md R57;
spec/30_encoding.md R44). -/
def State.endCycle (s : State) (op : Op) : State := if op.row.controlFlow then s else s.advance op.row.code

/-- Execute and advance: the state the handler leaves, advanced; or, where a check of the handler fails, the fault taken in the
state the instruction started from (spec/40_cycle.md R56, R57, R58). -/
def runHandler (op : Op) (s : State) (result : Except CoreError State) : Host.Outcome State Fault Refusal :=
  match result with
  | .ok t    => .next (t.endCycle op)
  | .error e => .next (s.raise e)

end Sys2Proof.Machine
end

