-- ==== Sys2Proof/Machine/Operands.lean ====
section
/-! DEFINITION. The operand forms: the operand latches of the fetch (spec/40_cycle.md R53), the register operand
(spec/10_state.md R12), and CALL's return address (spec/44_call_return.md R71). An immediate is its byte, unchanged
(spec/30_encoding.md R42). -/

namespace Sys2Proof.Machine

/-- What an operand latch receives: the byte at the address, or `Absent` (`none`) at 256 or above; the address is never reduced
modulo 256 (R53). -/
def State.latch (s : State) (addr : Nat) : Option Byte := if addr < memSize then some (s.readByte addr) else none

/-- The state with the instruction register and both operand latches written by the fetch at pc (R52, R53). -/
def State.latched (s : State) : State :=
  { s with ir := s.readByte s.pc, a := s.latch (s.pc + 1), b := s.latch (s.pc + 2) }

/-- The overrun check at fetch: under `FaultAlways` an absent operand faults whatever the opcode, a before b (R53; log 13). -/
def State.overrunAtFetch (s : State) : Except CoreError Unit :=
  match s.cfg.operandOverrun with
  | .faultIfUsed => .ok ()
  | .faultAlways =>
    if s.a = none then .error (.outOfRange (s.pc + 1))
    else if s.b = none then .error (.outOfRange (s.pc + 2))
    else .ok ()

/-- A register operand: the whole byte is the index, and an index of 8 or more raises `InvalidRegister` (spec/10_state.md R12). -/
def regOperand (r : Byte) : Except CoreError RegIndex :=
  if h : r.toNat < 8 then .ok ⟨r.toNat, h⟩ else .error (.invalidRegister r)

/-- The return address CALL pushes, `pc + 2`, which must be a byte (spec/44_call_return.md R71; decision D9: log 17). -/
def returnAddress (pc : Nat) : Except CoreError Byte :=
  if pc + 2 > 255 then .error (.outOfRange (pc + 2)) else .ok (BitVec.ofNat 8 (pc + 2))

end Sys2Proof.Machine
end

