-- ==== Sys2Proof/Machine/Flags.lean ====
section
/-! DEFINITION. The arithmetic results. There is no flag to compute: no instruction reads or writes `fl`, and no overflow, carry
or zero indication exists (spec/10_state.md R16, spec/42_load_and_alu.md). Results are exact integers; the register write reduces
them modulo 256 (spec/00_scope.md R8, spec/10_state.md R11). -/

namespace Sys2Proof.Machine

/-- ADD's exact sum of two unsigned bytes (spec/42_load_and_alu.md R66). -/
def addExact (x y : Byte) : Int := x.toNat + y.toNat

/-- MUL's exact product of two unsigned bytes (spec/42_load_and_alu.md R65). -/
def mulExact (x y : Byte) : Int := x.toNat * y.toNat

/-- `SP - 1`, exact (spec/43_stack.md R68). -/
def spMinusOne (s : State) : Int := s.sp.toNat - 1

/-- `SP + 1`, exact (spec/43_stack.md R69). -/
def spPlusOne (s : State) : Int := s.sp.toNat + 1

end Sys2Proof.Machine
end

