-- ==== Sys2Proof/Machine/CallReturn.lean ====
section
/-! DEFINITION. CALL and RET, the control-flow instructions (spec/44_call_return.md). They set pc themselves. -/

namespace Sys2Proof.Machine

/-- CALL (R71): the return address `pc + 2` is pushed, and pc takes the register, read after the decrement (decisions D8 and D9:
log 8, log 17). -/
def execCall (r : Byte) (s : State) : Host.Outcome State Fault Refusal :=
  runHandler .call s do
    let i ← regOperand r
    let ret ← returnAddress s.pc
    let s₁ := s.setReg spIndex (spMinusOne s)
    let s₂ ← s₁.memWrite s₁.sp.toNat ret
    return s₂.setPc (s₂.reg i).toNat

/-- RET (R72): `pc <- mem[SP]`, then `SP <- SP + 1`. -/
def execRet (s : State) : Host.Outcome State Fault Refusal :=
  runHandler .ret s do
    let v ← s.memRead s.sp.toNat
    let s₁ := s.setPc v.toNat
    return s₁.setReg spIndex (spPlusOne s₁)

end Sys2Proof.Machine
end

