-- ==== Sys2Proof/Machine/HaltOutput.lean ====
section
/-! DEFINITION. HLT and PRN (spec/41_halt_and_output.md). -/

namespace Sys2Proof.Machine

/-- HLT (R61): the status becomes `Halted`; the generic advance follows. -/
def execHlt (s : State) : Host.Outcome State Fault Refusal :=
  runHandler .hlt s (.ok s.halt)

/-- PRN (R62): the register's byte goes to the output port. -/
def execPrn (r : Byte) (s : State) : Host.Outcome State Fault Refusal :=
  runHandler .prn s do
    let i ← regOperand r
    return s.emit (s.reg i)

end Sys2Proof.Machine
end

