-- ==== Sys2Proof/Machine/LoadAlu.lean ====
section
/-! DEFINITION. LDI, MUL and ADD (spec/42_load_and_alu.md). -/

namespace Sys2Proof.Machine

/-- LDI (R64): the register takes the immediate byte. -/
def execLdi (r imm : Byte) (s : State) : Host.Outcome State Fault Refusal :=
  runHandler .ldi s do
    let i ← regOperand r
    return s.setReg i imm.toNat

/-- MUL (R65): the product modulo 256; operand a is checked before operand b. -/
def execMul (ra rb : Byte) (s : State) : Host.Outcome State Fault Refusal :=
  runHandler .mul s do
    let i ← regOperand ra
    let j ← regOperand rb
    return s.setReg i (mulExact (s.reg i) (s.reg j))

/-- ADD (R66): the sum modulo 256; operand a is checked before operand b. -/
def execAdd (ra rb : Byte) (s : State) : Host.Outcome State Fault Refusal :=
  runHandler .add s do
    let i ← regOperand ra
    let j ← regOperand rb
    return s.setReg i (addExact (s.reg i) (s.reg j))

end Sys2Proof.Machine
end

