-- ==== Sys2Proof/Machine/Stack.lean ====
section
/-! DEFINITION. PUSH and POP (spec/43_stack.md). Effects take place in the order written, so a read of R7 sees the stack pointer
as the earlier statement left it (decision D8: log 8). -/

namespace Sys2Proof.Machine

/-- PUSH (R68): `SP <- SP - 1`, then `mem[SP] <- R[a]`, the register read after the decrement. -/
def execPush (r : Byte) (s : State) : Host.Outcome State Fault Refusal :=
  runHandler .push s do
    let i ← regOperand r
    let s₁ := s.setReg spIndex (spMinusOne s)
    s₁.memWrite s₁.sp.toNat (s₁.reg i)

/-- POP (R69): `R[a] <- mem[SP]`, then `SP <- SP + 1`, R7 read after the write. -/
def execPop (r : Byte) (s : State) : Host.Outcome State Fault Refusal :=
  runHandler .pop s do
    let i ← regOperand r
    let v ← s.memRead s.sp.toNat
    let s₁ := s.setReg i v.toNat
    return s₁.setReg spIndex (spPlusOne s₁)

end Sys2Proof.Machine
end

