-- ==== Sys2Proof/Machine/Cycle.lean ====
section
/-! DEFINITION. The instruction cycle of a running core: fetch, decode, execute, advance (spec/40_cycle.md R52 to R58), and the
placing of an instruction's bytes where the next fetch reads them. -/

namespace Sys2Proof.Machine

/-- The fetch: the opcode read at pc, which faults at 256 or above, then both operand latches, and the overrun check of
`FaultAlways` (R52, R53). -/
def fetch (s : State) : Except CoreError State := do
  let _ ← s.memRead s.pc
  s.latched.overrunAtFetch
  return s.latched

/-- An unknown opcode, by the policy: a no-op with the generic advance and a log entry, or the fault `UnknownOpcode` (R55;
spec/60_exceptions.md R79, R90). It is never control flow (spec/30_encoding.md R44). -/
def unknownOpcode (s : State) : Host.Outcome State Fault Refusal :=
  match s.cfg.unknownOpcode with
  | .ignore => .next (s.logUnknown.advance s.ir)
  | .fault  => .next (s.raise (.unknownOpcode s.ir s.pc))

/-- The end of a step that began in `s`: a fault raised anywhere in it leaves `s` with only the status changed, so the latches the
fetch wrote are not kept (R58). -/
def settle (s : State) : Host.Outcome State Fault Refusal → Host.Outcome State Fault Refusal
  | .next t =>
    match t.status with
    | .faulted e => .next (s.raise e)
    | .running   => .next t
    | .halted    => .next t
  | .fault r => .fault r
  | .refused r => .refused r

/-- Decode and execute, in a state whose latches the fetch has written. An absent operand that the handler uses raises
`OutOfRange` of its address (R53, R54, R55, R56; the order of spec/60_exceptions.md R82). -/
def decodeAndExec (s : State) : Host.Outcome State Fault Refusal :=
  match decode s.ir s.a s.b with
  | .ok i                    => exec i s
  | .error (.unknownOpcode _) => unknownOpcode s
  | .error .operandAAbsent   => .next (s.raise (.outOfRange (s.pc + 1)))
  | .error .operandBAbsent   => .next (s.raise (.outOfRange (s.pc + 2)))
  | .error .opcodeAbsent         => .next (s.raise (.outOfRange s.pc))

/-- One instruction cycle of a running core. -/
def cycle (s : State) : Host.Outcome State Fault Refusal :=
  match fetch s with
  | .error e => .next (s.raise e)
  | .ok s₁   => settle s (decodeAndExec s₁)

/-- The state with an instruction's bytes in the cells the next fetch reads. -/
def State.placeAtPc (s : State) (bytes : List Byte) : State := { s with mem := Memory.writeList s.mem s.pc bytes }

end Sys2Proof.Machine
end

