-- ==== Sys2Proof/Machine/Step.lean ====
section
/-! DEFINITION. One step of the core: one instruction cycle, and only while the status is `Running` (spec/40_cycle.md R51). -/

namespace Sys2Proof.Machine

/-- A final status has no step (R51; spec/60_exceptions.md R81; log 4). -/
def step (s : State) : Host.Outcome State Fault Refusal :=
  match s.status with
  | .running   => cycle s
  | .halted    => .fault .halted
  | .faulted e => .fault (.faulted e)

/-- `s` with the instruction word `w` of `nbits` bits (numbered as spec/opcode_table.json numbers them, zeros above) in the cells
from pc up, where the next step fetches. It stands for the host's load of a program (log 9). -/
def State.withFetchWord (s : State) (nbits w : Nat) : State := s.placeAtPc (bytesOfWord nbits w)

end Sys2Proof.Machine
end

