-- ==== Sys2Proof/Machine/Load.lean ====
section
/-! DEFINITION. The load port, the host's only write to memory, and the boot sequence (spec/20_memory.md R38,
spec/70_reset_and_hazards.md R92; log 9). -/

namespace Sys2Proof.Machine

/-- `load(bytes, start)`: the bytes go to `start` and up, in order, or, where they do not fit, nothing is written and the core
is `Faulted(ProgramTooLarge, n)` (R38; spec/60_exceptions.md R77). -/
def State.load (s : State) (bytes : List Byte) (start : Nat) : State :=
  if start + bytes.length > memSize then s.raise (.programTooLarge bytes.length)
  else { s with mem := Memory.writeList s.mem start bytes }

/-- The core as its first step finds it: constructed with a configuration, the program loaded at address 0
(spec/70_reset_and_hazards.md R92). -/
def State.boot (cfg : Config) (program : List Byte) : State := (State.construct cfg).load program entryPoint

end Sys2Proof.Machine
end

