-- ==== Sys2Proof/Machine/ProgramText.lean ====
section
/-! DEFINITION. The text forms around the core: a line of the mnemonic program form and of the binary program form as the bytes
it stands for (spec/30_encoding.md R48, R49, R50), an instruction as its assembly line, and the host's line for an emitted byte
(spec/41_halt_and_output.md R63). No step reads any of it. A line is a list of characters. `none` is a line whose treatment the
spec leaves to the loader (log 16). -/

namespace Sys2Proof.Machine

/-- The mnemonics of the assembly syntax (R48; decision D19: log 16). -/
def opMnemonic : Op → List Char
  | .hlt  => ['H', 'L', 'T']
  | .ldi  => ['L', 'D', 'I']
  | .prn  => ['P', 'R', 'N']
  | .mul  => ['M', 'U', 'L']
  | .add  => ['A', 'D', 'D']
  | .push => ['P', 'U', 'S', 'H']
  | .pop  => ['P', 'O', 'P']
  | .call => ['C', 'A', 'L', 'L']
  | .ret  => ['R', 'E', 'T']

/-- The value of a decimal digit. -/
def digitValue (c : Char) : Nat := c.toNat - '0'.toNat

/-- A non-empty string of digits of the base, read from the left with the value `acc` so far. -/
def digitsFrom (base acc : Nat) : List Char → Option Nat
  | [] => some acc
  | c :: cs => if c.isDigit && decide (digitValue c < base) then digitsFrom base (acc * base + digitValue c) cs else none

/-- A bare decimal integer (R48), where it is a byte. -/
def decimalByte (t : List Char) : Option Byte :=
  if t = [] then none
  else match digitsFrom 10 0 t with
    | some n => if n < 256 then some (BitVec.ofNat 8 n) else none
    | none   => none

/-- The byte of one token: a mnemonic its opcode, `R<d>` the byte d, a decimal integer its value (R48). -/
def tokenByte (t : List Char) : Option Byte :=
  match Op.all.find? fun op => opMnemonic op == t with
  | some op => some op.row.code
  | none =>
    match t with
    | ['R', d] => if d.isDigit then some (BitVec.ofNat 8 (digitValue d)) else none
    | _ => decimalByte t

/-- Tokens are separated by white space and commas (R48). -/
def isSeparator (c : Char) : Bool := c.isWhitespace || c == ','

/-- A finished token, where there is one. -/
def finishToken (cur : List Char) : List (List Char) := if cur = [] then [] else [cur]

/-- The tokens of a line, `cur` being the one under way. -/
def tokensFrom (cur : List Char) : List Char → List (List Char)
  | [] => finishToken cur
  | c :: cs => if isSeparator c then finishToken cur ++ tokensFrom [] cs else tokensFrom (cur ++ [c]) cs

/-- The bytes of a list of tokens, one byte a token, in order (R48, R50). -/
def tokenBytes : List (List Char) → Option (List Byte)
  | [] => some []
  | t :: ts =>
    match tokenByte t, tokenBytes ts with
    | some v, some vs => some (v :: vs)
    | _, _ => none

/-- The bytes of a line of the mnemonic form; a line that is empty or begins with `#` is ignored (R48). -/
def mnemonicLine (line : List Char) : Option (List Byte) :=
  if line.head? = some '#' then some [] else tokenBytes (tokensFrom [] line)

/-- The bytes of a line of the binary form: its first eight characters as a base-2 literal where the first is a digit, and none
where it is not (R49). -/
def binaryLine (line : List Char) : Option (List Byte) :=
  match line with
  | [] => some []
  | c :: _ =>
    if c.isDigit then
      if (line.take 8).length = 8 then
        match digitsFrom 2 0 (line.take 8) with
        | some n => some [BitVec.ofNat 8 n]
        | none   => none
      else none
    else some []

/-- The bytes of a program, line by line, in order. -/
def programBytes (ofLine : List Char → Option (List Byte)) : List (List Char) → Option (List Byte)
  | [] => some []
  | l :: ls =>
    match ofLine l, programBytes ofLine ls with
    | some vs, some ws => some (vs ++ ws)
    | _, _ => none

/-- An unsigned byte in decimal, with no padding. -/
def decimalText (v : Byte) : List Char := Nat.toDigits 10 v.toNat

/-- A register operand as a token: `R<d>`; an index above 9 has no such token and is written as a decimal integer. -/
def registerText (r : Byte) : List Char := if r.toNat < 10 then 'R' :: decimalText r else decimalText r

/-- The assembly line of an instruction, as the syntax column of R48's table writes it. -/
def assemblyLine (i : Instr) : List Char :=
  match i with
  | .hlt       => opMnemonic .hlt
  | .ldi r imm => opMnemonic .ldi ++ [' '] ++ registerText r ++ [',', ' '] ++ decimalText imm
  | .prn r     => opMnemonic .prn ++ [' '] ++ registerText r
  | .mul ra rb => opMnemonic .mul ++ [' '] ++ registerText ra ++ [',', ' '] ++ registerText rb
  | .add ra rb => opMnemonic .add ++ [' '] ++ registerText ra ++ [',', ' '] ++ registerText rb
  | .push r    => opMnemonic .push ++ [' '] ++ registerText r
  | .pop r     => opMnemonic .pop ++ [' '] ++ registerText r
  | .call r    => opMnemonic .call ++ [' '] ++ registerText r
  | .ret       => opMnemonic .ret

/-- The line the host prints for an emitted byte (spec/41_halt_and_output.md R63). -/
def hostLine (v : Byte) : List Char := decimalText v ++ ['\n']

end Sys2Proof.Machine
end

