-- ==== Sys2Proof/Safety.lean ====
section
/-! DEFINITION. What claims are stated in: runs and their ends (spec/70_reset_and_hazards.md R99), safe runs, the fault a step
reports by the order of spec/60_exceptions.md R82, and the invariant of the machine. -/

namespace Sys2Proof.Machine

/-! ### Runs -/

/-- `t` is reached from `s` in some number of steps. -/
inductive Reaches : State → State → Prop where
  | refl (s : State) : Reaches s s
  | tail {s t u : State} : Reaches s t → step t = .next u → Reaches s u

/-- The end of a run: a state whose status is no longer `Running` (spec/70_reset_and_hazards.md R99). -/
def State.isFinal (s : State) : Bool := decide (s.status ≠ .running)

/-- A safe run: no state reached from `s` has faulted. -/
def NeverFaults (s : State) : Prop := ∀ t, Reaches s t → ∀ e, t.status ≠ .faulted e

/-- The run from `s` ends in `t`. -/
def EndsIn (s t : State) : Prop := Reaches s t ∧ t.isFinal = true

/-! ### The fault a step reports -/

/-- How many operands of the instruction are register operands, checked in order (spec/60_exceptions.md R76). -/
def Op.registerChecks : Op → Nat
  | .hlt  => 0
  | .ldi  => 1
  | .prn  => 1
  | .mul  => 2
  | .add  => 2
  | .push => 1
  | .pop  => 1
  | .call => 1
  | .ret  => 0

/-- The first fault condition the instruction at pc meets, in the order of the list of spec/60_exceptions.md R82 (decision D7:
log 10), read off the memory and the configuration alone; `none` where the step raises no fault. -/
def State.firstFault (s : State) : Option CoreError :=
  let always := s.cfg.operandOverrun = .faultAlways
  let x := s.readByte (s.pc + 1)
  let y := s.readByte (s.pc + 2)
  if 256 ≤ s.pc then some (.outOfRange s.pc)
  else if always ∧ 256 ≤ s.pc + 1 then some (.outOfRange (s.pc + 1))
  else if always ∧ 256 ≤ s.pc + 2 then some (.outOfRange (s.pc + 2))
  else match lookup (s.readByte s.pc) with
    | none =>
      if s.cfg.unknownOpcode = .fault then some (.unknownOpcode (s.readByte s.pc) s.pc) else none
    | some op =>
      if 1 ≤ op.row.used ∧ 256 ≤ s.pc + 1 then some (.outOfRange (s.pc + 1))
      else if op.row.used = 2 ∧ 256 ≤ s.pc + 2 then some (.outOfRange (s.pc + 2))
      else if 1 ≤ Op.registerChecks op ∧ 8 ≤ x.toNat then some (.invalidRegister x)
      else if Op.registerChecks op = 2 ∧ 8 ≤ y.toNat then some (.invalidRegister y)
      else if op = .call ∧ 256 ≤ s.pc + 2 then some (.outOfRange (s.pc + 2))
      else none

/-! ### The invariant -/

/-- What the information record of a fault can be in a core with configuration `cfg` (spec/60_exceptions.md R74 to R79). -/
def CoreError.possible (cfg : Config) : CoreError → Bool
  | .outOfRange addr => decide (256 ≤ addr) && decide (addr ≤ 259)
  | .invalidRegister i => decide (8 ≤ i.toNat)
  | .programTooLarge n => decide (256 < n)
  | .unsupportedOperation _ => false
  | .unknownOpcode ir pc => decide (cfg.unknownOpcode = .fault) && (lookup ir).isNone && decide (pc ≤ 255)

/-- What an entry of the diagnostic log can be (spec/60_exceptions.md R90). -/
def possibleLogEntry (cfg : Config) (entry : Nat × Byte) : Bool :=
  decide (cfg.unknownOpcode = .ignore) && (lookup entry.2).isNone && decide (entry.1 ≤ 255)

/-- The invariant of the machine: memory in its canonical form, pc in the range of spec/10_state.md R15, the flags register at
its reset value (R16), and a fault record and a log that the configuration allows. -/
structure State.Inv (s : State) : Prop where
  mem_wf    : Memory.wf s.mem = true
  pc_range  : s.pc ≤ 259
  fl_reset  : s.fl = 0
  status_ok : ∀ e, s.status = .faulted e → CoreError.possible s.cfg e = true
  diag_ok   : ∀ entry ∈ s.diag, possibleLogEntry s.cfg entry = true

end Sys2Proof.Machine
end

