-- ==== Sys2Proof/Certificates/Slice0/Obligations.lean ====
section
/-! DEFINITION. The statements for the provers, each from a rule of spec/. A docstring names the rule it states whole, or, for a
statement that rests on one of the spec's own decisions (D<n>, spec/92_eei_decisions.md), the decision and its log entry. Where a
rule says `raise K(info)`, the statement says `s.raise e`: the status becomes `Faulted(K, info)` and the instruction has no other
effect (the row of `raise` in spec/00_scope.md R9). -/

open Sys2Proof Sys2Proof.Machine

/-! ### Reset, boot and the invariant -/

/-- The table of spec/10_state.md R24 for every configuration, and the defaults of State.reset. The values of `fl`, `ir` and the
latches are the spec's own choice (D10, D11: log 6, log 7); the default configuration is the spec's (D3, D4: log 2). -/
def Obligations.ResetHoldsTheTabledValues : Prop :=
  (∀ cfg : Config, let s := State.construct cfg
    s.cfg = cfg ∧ (∀ x, s.readByte x = 0) ∧ (∀ i : RegIndex, i ≠ 7 → s.reg i = 0) ∧ s.reg 7 = 244 ∧ s.pc = 0 ∧
    s.status = .running ∧ s.fl = 0 ∧ s.ir = 0 ∧ s.a = none ∧ s.b = none ∧ s.out = [] ∧ s.diag = []) ∧
  State.reset = State.construct ⟨.ignore, .faultIfUsed⟩

/-- The invariant of Safety.lean holds after reset, in every configuration. Its clause that `fl` is 0 is no value of the source but
the spec's own choice (D10: log 6). -/
def Obligations.ResetMeetsTheMachineInvariant : Prop := ∀ cfg : Config, (State.construct cfg).Inv

/-- Every step keeps the invariant, from every state that meets it: memory stays canonical, pc stays in 0 to 259 (D2: log 5), the
flags register stays at its reset value (D10: log 6), and a fault record or an entry of the diagnostic log (D20: log 12) is one the
configuration allows. -/
def Obligations.StepKeepsTheMachineInvariant : Prop :=
  ∀ s t : State, s.Inv → step s = .next t → t.Inv

/-- Every state that any program reaches, in any configuration, meets the invariant. Four parts of it are the spec's own choices:
what the load port does (D18: log 9), that pc stays in 0 to 259 (D2: log 5), that `fl` is 0 (D10: log 6), and the diagnostic log
(D20: log 12). -/
def Obligations.EveryProgramStaysInsideTheInvariant : Prop :=
  ∀ (cfg : Config) (program : List Byte) (t : State), Reaches (State.boot cfg program) t → t.Inv

/-- The load port (spec/20_memory.md R38, D18: log 9): a program that fits is written byte by byte and nothing else changes; one
that does not fit is reported and nothing is written. -/
def Obligations.LoadPortWritesTheProgramOrReportsIt : Prop :=
  ∀ (s : State) (bytes : List Byte) (start : Nat), Memory.wf s.mem = true →
    (start + bytes.length ≤ 256 →
      (∀ (k : Nat) (h : k < bytes.length), (s.load bytes start).readByte (start + k) = bytes[k]) ∧
      (∀ x, x < 256 → (x < start ∨ start + bytes.length ≤ x) → (s.load bytes start).readByte x = s.readByte x) ∧
      Memory.wf (s.load bytes start).mem = true ∧
      s.load bytes start = { s with mem := (s.load bytes start).mem }) ∧
    (256 < start + bytes.length → s.load bytes start = { s with status := .faulted (.programTooLarge bytes.length) })

/-! ### Encoding -/

/-- One word of each row, its bits as the table of R43 gives them; a sanity statement about the decoder. -/
def Obligations.TableWordsDecodeToTheirInstructions : Prop :=
  decodeBytes [0b00000001] = .ok .hlt ∧
  decodeBytes [0b10000010, 0b00000000, 0b00001000] = .ok (.ldi 0 8) ∧
  decodeBytes [0b01000111, 0b00000011] = .ok (.prn 3) ∧
  decodeBytes [0b10100010, 0b00000001, 0b00000010] = .ok (.mul 1 2) ∧
  decodeBytes [0b10100000, 0b00000111, 0b00000100] = .ok (.add 7 4) ∧
  decodeBytes [0b01000101, 0b00000101] = .ok (.push 5) ∧
  decodeBytes [0b01000110, 0b00000110] = .ok (.pop 6) ∧
  decodeBytes [0b01010000, 0b00000001] = .ok (.call 1) ∧
  decodeBytes [0b00010001] = .ok .ret

/-- R43 of spec/30_encoding.md: the opcode map row by row (opcode, operand count from bits 7:6, length, control flow), and no
other byte is in it. -/
def Obligations.OpcodeMapIsExactlyTheTable : Prop :=
  ∀ (ir : Byte) (op : Op), lookup ir = some op ↔
    (ir, op, operandCount ir, op.row.used + 1, op.row.controlFlow) ∈
      [((1 : Byte), Op.hlt, 0, 1, false), (130, .ldi, 2, 3, false), (71, .prn, 1, 2, false), (162, .mul, 2, 3, false),
       (160, .add, 2, 3, false), (69, .push, 1, 2, false), (70, .pop, 1, 2, false), (80, .call, 1, 2, true),
       (17, .ret, 0, 1, true)]

/-- The classes of unknown opcodes by bits 7:6 (spec/30_encoding.md, "Unknown, reserved and hint encodings"). -/
def Obligations.UnknownOpcodesCountByClass : Prop :=
  let unknown := ((List.range 256).map (BitVec.ofNat 8)).filter fun ir => (lookup ir).isNone
  unknown.length = 247 ∧
  (unknown.filter fun ir => operandCount ir == 0).length = 62 ∧
  (unknown.filter fun ir => operandCount ir == 1).length = 60 ∧
  (unknown.filter fun ir => operandCount ir == 2).length = 61 ∧
  (unknown.filter fun ir => operandCount ir == 3).length = 64 ∧
  lookup 0 = none

/-- Decode and encode agree, both ways: the bytes that decode to an instruction are exactly those that begin with its encoding,
for every instruction and every operand byte (spec/30_encoding.md R39, R41, R43). -/
def Obligations.DecodeReadsExactlyTheEncodedBytes : Prop :=
  ∀ (bytes : List Byte) (i : Instr), decodeBytes bytes = .ok i ↔ ∃ rest, bytes = encode i ++ rest

/-- R40 of spec/30_encoding.md: the operand count is the opcode's top two bits, it sets how far a completed instruction that is
not control flow moves pc, and the whole byte identifies the instruction. -/
def Obligations.TopTwoOpcodeBitsSetTheAdvance : Prop :=
  (∀ ir : Byte, operandCount ir = ir.toNat / 64) ∧
  (∀ (ir : Byte) (op : Op), lookup ir = some op ↔ ir = op.row.code) ∧
  (∀ i : Instr, i.operandBytes.length = operandCount i.op.row.code) ∧
  (∀ (i : Instr) (s t : State), exec i s = .next t → (∀ e, t.status ≠ .faulted e) → (∀ r, i ≠ .call r) → i ≠ .ret →
    t.pc = s.pc + i.op.row.code.toNat / 64 + 1)

/-- R44 of spec/30_encoding.md: the control-flow instructions are exactly CALL and RET; they set pc themselves with no advance
after it (CALL the register's value, before or after its decrement of SP; which of the two R7 has is no part of R44); every other
instruction, and an unknown opcode whatever its bits, is followed by the generic advance. -/
def Obligations.ControlFlowIsExactlyCallAndRet : Prop :=
  (∀ op : Op, op.row.controlFlow = true ↔ op = .call ∨ op = .ret) ∧
  (∀ (r : Byte) (s t : State), exec (.call r) s = .next t → (∀ e, t.status ≠ .faulted e) →
    ∃ h : r.toNat < 8, t.pc = (t.reg ⟨r.toNat, h⟩).toNat ∨ t.pc = (s.reg ⟨r.toNat, h⟩).toNat) ∧
  (∀ s t : State, exec .ret s = .next t → t.pc = (s.readByte (s.reg 7).toNat).toNat) ∧
  (∀ (i : Instr) (s t : State), i.op.row.controlFlow = false → exec i s = .next t → (∀ e, t.status ≠ .faulted e) →
    t.pc = s.pc + advanceLength i.op.row.code) ∧
  (∀ s t : State, s.status = .running → lookup (s.readByte s.pc) = none → step s = .next t → (∀ e, t.status ≠ .faulted e) →
    t.pc = s.pc + advanceLength (s.readByte s.pc))

/-- Assembling an instruction's line gives its encoding (spec/30_encoding.md R48; the syntax of ADD, PUSH, POP, CALL and RET is
the spec's own choice, D19: log 16). -/
def Obligations.AssemblyLineGivesTheEncodedBytes : Prop :=
  ∀ i : Instr, i.wellFormed = true → mnemonicLine (assemblyLine i) = some (encode i)

/-! ### The cycle -/

/-- A step is the decoded instruction run with the latches written by the fetch (spec/40_cycle.md R52 to R57); where it raises a
fault, only the status of the state before the step changes (R58, D5: log 3). The latch of an address past 255 is `Absent`, and the
premise on the policy is where such a latch does not fault by itself (D4: log 13). -/
def Obligations.StepRunsTheDecodedInstruction : Prop :=
  ∀ (s u : State) (i : Instr), s.status = .running → s.pc < 256 → (s.cfg.operandOverrun = .faultIfUsed ∨ s.pc ≤ 253) →
    u = { s with
      ir := s.readByte s.pc
      a := if s.pc + 1 < 256 then some (s.readByte (s.pc + 1)) else none
      b := if s.pc + 2 < 256 then some (s.readByte (s.pc + 2)) else none } →
    decode u.ir u.a u.b = .ok i →
    ∃ t, exec i u = .next t ∧
      ((∀ e, t.status ≠ .faulted e) → step s = .next t) ∧
      (∀ e, t.status = .faulted e → step s = .next { s with status := .faulted e })

/-- An instruction whose encoding stands in memory at pc is the one the step runs: fetch, decode and encode fit together for every
instruction, well-formed or not (spec/30_encoding.md R39, spec/40_cycle.md R52 to R56). Two parts are the spec's own choices: through
`settle`, that an instruction which faults, an ill-formed one among them, leaves the state before the step with only the status
changed (D5: log 3); and the policy premise with the latches past 255 (D4: log 13). -/
def Obligations.EncodedInstructionAtPcRuns : Prop :=
  ∀ (s : State) (i : Instr), s.status = .running → s.pc + (encode i).length ≤ 256 →
    (s.cfg.operandOverrun = .faultIfUsed ∨ s.pc ≤ 253) →
    (∀ (k : Nat) (h : k < (encode i).length), s.readByte (s.pc + k) = (encode i)[k]) →
    step s = settle s (exec i s.latched)

/-- A running core has a step, which is one whole instruction cycle: the decoded instruction's execution from its own fetch, an
unknown opcode passed over, or a fault; a state that has halted or faulted has none (spec/40_cycle.md, the rule of the step). That the
model answers `Outcome.fault` where there is no step is the model's own form (DEDUCED: log 4); that an unknown opcode passed over is
logged (D20: log 12) and that a fault changes only the status (D5: log 3) are the spec's own choices. -/
def Obligations.OnlyARunningCoreHasAStep : Prop :=
  ∀ s : State,
    (s.status = .running → ∃ t, step s = .next t ∧
      ((∃ e, t = s.raise e) ∨
       (∃ i, decode (s.readByte s.pc) (s.latch (s.pc + 1)) (s.latch (s.pc + 2)) = .ok i ∧ exec i s.latched = .next t) ∨
       (lookup (s.readByte s.pc) = none ∧ t = s.latched.logUnknown.advance (s.readByte s.pc)))) ∧
    (s.status = .halted → step s = .fault .halted) ∧
    (∀ e, s.status = .faulted e → step s = .fault (.faulted e))

/-- R52 of spec/40_cycle.md: the opcode fetch raises `OutOfRange(pc)` at 256 or above; otherwise `ir` receives the byte at pc. -/
def Obligations.OpcodeFetchReadsTheByteAtPc : Prop :=
  ∀ s : State, s.status = .running →
    (256 ≤ s.pc → step s = .next (s.raise (.outOfRange s.pc))) ∧
    (s.pc < 256 → ∀ t, step s = .next t → (∀ e, t.status ≠ .faulted e) → t.ir = s.readByte s.pc)

/-- The operand fetch beyond 255 (spec/40_cycle.md R53, the spec's parameter and decision D4: log 13): the two policies, the
absent latches, and that an opcode at 253 or below meets no overrun. -/
def Obligations.OperandOverrunFollowsThePolicy : Prop :=
  ∀ s : State, s.status = .running →
    (s.cfg.operandOverrun = .faultAlways → (s.pc = 254 ∨ s.pc = 255) → step s = .next (s.raise (.outOfRange 256))) ∧
    (s.cfg.operandOverrun = .faultIfUsed → ∀ op, lookup (s.readByte s.pc) = some op →
      (s.pc = 255 → 1 ≤ op.row.used → step s = .next (s.raise (.outOfRange 256))) ∧
      (s.pc = 254 → op.row.used = 2 → step s = .next (s.raise (.outOfRange 256))) ∧
      (s.pc = 255 → op.row.used = 0 → ∃ t, step s = .next t ∧ (∀ e, t.status ≠ .faulted e) ∧ t.a = none ∧ t.b = none) ∧
      (s.pc = 254 → op.row.used ≤ 1 → op ≠ .call → ∃ t, step s = .next t ∧ (∀ x, t.status ≠ .faulted (.outOfRange x)) ∧
        ((∀ e, t.status ≠ .faulted e) → t.a = some (s.readByte 255) ∧ t.b = none))) ∧
    (s.pc ≤ 253 → ∃ t, step s = .next t ∧ (∀ x, t.status ≠ .faulted (.outOfRange x)) ∧
      ((∀ e, t.status ≠ .faulted e) → t.a = some (s.readByte (s.pc + 1)) ∧ t.b = some (s.readByte (s.pc + 2))))

/-- An unknown opcode by the policy (spec/40_cycle.md R55, the spec's parameter and decisions D3 and D20: log 2, log 12). -/
def Obligations.UnknownOpcodeFollowsThePolicy : Prop :=
  ∀ s : State, s.status = .running → s.pc < 256 → (s.cfg.operandOverrun = .faultIfUsed ∨ s.pc ≤ 253) →
    lookup (s.readByte s.pc) = none →
    (s.cfg.unknownOpcode = .ignore → ∃ t, step s = .next t ∧ t.pc = s.pc + (s.readByte s.pc).toNat / 64 + 1 ∧
      t.diag = s.diag ++ [(s.pc, s.readByte s.pc)] ∧ t.status = .running ∧ (∀ j, t.reg j = s.reg j) ∧
      (∀ x, t.readByte x = s.readByte x) ∧ t.fl = s.fl ∧ t.out = s.out ∧ t.cfg = s.cfg) ∧
    (s.cfg.unknownOpcode = .fault → step s = .next (s.raise (.unknownOpcode (s.readByte s.pc) s.pc)))

/-- Faults are precise (spec/40_cycle.md R58, spec/60_exceptions.md R80; the state a fault leaves is the spec's own choice, D5:
log 3): the state before the step with only its status changed. -/
def Obligations.FaultingStepChangesOnlyTheStatus : Prop :=
  ∀ (s t : State) (e : CoreError), s.status = .running → step s = .next t → t.status = .faulted e →
    t = { s with status := .faulted e }

/-- A step raises a fault exactly where the instruction at pc meets a fault condition, and reports the first of them in the order
of the list of spec/60_exceptions.md R82. The order (D7: log 10), the two policies (D3: log 2; D4: log 13) and the state a fault
leaves (D5: log 3) are the spec's own choices. -/
def Obligations.StepReportsTheFirstFaultCondition : Prop :=
  ∀ s : State, s.status = .running →
    (∀ e, s.firstFault = some e → step s = .next (s.raise e)) ∧
    (s.firstFault = none → ∃ t, step s = .next t ∧ ∀ e, t.status ≠ .faulted e)

/-- Only HLT enters `Halted` (spec/10_state.md R17, spec/60_exceptions.md R89; with `Faulted` kept apart from it by D5: log 3). -/
def Obligations.OnlyHltHaltsTheCore : Prop :=
  (∀ (i : Instr) (s t : State), s.status = .running → exec i s = .next t → (t.status = .halted ↔ i = .hlt)) ∧
  (∀ s t : State, step s = .next t → t.status = .halted → s.readByte s.pc = 1 ∧ t.pc = s.pc + 1)

/-- R78 of spec/60_exceptions.md: no instruction passes an operation name to an ALU, so no run raises `UnsupportedOperation`. -/
def Obligations.NoRunRaisesUnsupportedOperation : Prop :=
  (∀ (s t : State) (name : String), step s = .next t → t.status ≠ .faulted (.unsupportedOperation name)) ∧
  (∀ (cfg : Config) (program : List Byte) (t : State) (name : String), Reaches (State.boot cfg program) t →
    t.status ≠ .faulted (.unsupportedOperation name))

/-- No instruction changes the configuration (spec/00_scope.md R4; the field is the model's, log 1) or the flags register
(spec/10_state.md R16, D10: log 6), and none raises `ProgramTooLarge` (spec/60_exceptions.md R77, D18: log 9). -/
def Obligations.ConfigurationAndFlagsNeverChange : Prop :=
  ∀ s t : State, step s = .next t → t.cfg = s.cfg ∧ t.fl = s.fl ∧ ∀ n, t.status ≠ .faulted (.programTooLarge n)

/-- Only PUSH and CALL write memory, one cell each, below the stack pointer modulo 256 (spec/20_memory.md R25). -/
def Obligations.OnlyPushAndCallWriteMemory : Prop :=
  ∀ s t : State, step s = .next t →
    (∀ x, t.readByte x = s.readByte x) ∨
    ((s.readByte s.pc = 69 ∨ s.readByte s.pc = 80) ∧
      ∀ x, x ≠ ((s.reg 7).toNat + 255) % 256 → t.readByte x = s.readByte x)

/-- Only PRN appends to the output, one byte, the register its operand names (spec/10_state.md R21, D17: log 11), and only an
ignored unknown opcode appends to the diagnostic log (spec/60_exceptions.md R90, D20: log 12). -/
def Obligations.OutputAndLogGrowOnlyByTheirOwnOpcodes : Prop :=
  ∀ s t : State, step s = .next t →
    (t.out = s.out ∨ (s.readByte s.pc = 71 ∧
      ∃ h : (s.readByte (s.pc + 1)).toNat < 8, t.out = s.out ++ [s.reg ⟨(s.readByte (s.pc + 1)).toNat, h⟩])) ∧
    (t.diag = s.diag ∨ (lookup (s.readByte s.pc) = none ∧ s.cfg.unknownOpcode = .ignore ∧
      t.diag = s.diag ++ [(s.pc, s.readByte s.pc)]))

/-- A run ends in at most one state (spec/40_cycle.md R60, spec/70_reset_and_hazards.md R99). -/
def Obligations.RunEndsInAtMostOneState : Prop :=
  ∀ s t u : State, EndsIn s t → EndsIn s u → t = u

/-- A run can be infinite (spec/40_cycle.md R59): some program, loaded whole, keeps the core `Running` in every state it reaches, in
every configuration; that a program is loaded before the first step is the spec's own choice (D18: log 9). -/
def Obligations.SomeRunNeverEnds : Prop :=
  ∃ program : List Byte, program.length ≤ 256 ∧
    ∀ (cfg : Config) (t : State), Reaches (State.boot cfg program) t → t.status = .running ∧ ∃ u, step t = .next u

/-- The operands of a PUSH are latched before it writes, so a PUSH into its own bytes stores the register its old operand names;
and the byte it stores is the opcode the next step fetches there (spec/20_memory.md R36, spec/70_reset_and_hazards.md R96, both
derived by the spec; the value for R7 is D8: log 8). -/
def Obligations.StoreIntoTheProgramIsSeenByTheNextFetch : Prop :=
  ∀ (s : State) (h : (s.readByte (s.pc + 1)).toNat < 8), Memory.wf s.mem = true → s.status = .running → s.pc ≤ 254 →
    (s.cfg.operandOverrun = .faultIfUsed ∨ s.pc ≤ 253) → s.readByte s.pc = 69 →
    ∃ t, step s = .next t ∧ t.pc = s.pc + 2 ∧
      t.readByte (((s.reg 7).toNat + 255) % 256) = t.reg ⟨(s.readByte (s.pc + 1)).toNat, h⟩ ∧
      (t.pc = ((s.reg 7).toNat + 255) % 256 → ∀ u, step t = .next u → (∀ e, u.status ≠ .faulted e) →
        u.ir = t.reg ⟨(s.readByte (s.pc + 1)).toNat, h⟩)

/-! ### The instructions -/

/-- R61 of spec/41_halt_and_output.md: HLT halts, then advances, at every pc (256 after a HLT at 255); its encoding; and the
overrun at fetch, its one fault, under `FaultAlways` (the policies are those of R53). -/
def Obligations.HltHaltsAndAdvances : Prop :=
  (∀ s : State, ∃ t, exec .hlt s = .next t ∧ t.status = .halted ∧ t.pc = s.pc + 1) ∧
  encode .hlt = [1] ∧
  (∀ s : State, s.status = .running → s.readByte s.pc = 1 → s.pc < 256 →
    (s.cfg.operandOverrun = .faultIfUsed ∨ s.pc ≤ 253 → ∃ t, step s = .next t ∧ t.status = .halted ∧ t.pc = s.pc + 1 ∧
      (∀ k, step t ≠ .next k) ∧ (∀ j, t.reg j = s.reg j) ∧ (∀ x, t.readByte x = s.readByte x) ∧ t.out = s.out ∧
      t.fl = s.fl) ∧
    (s.cfg.operandOverrun = .faultAlways → 254 ≤ s.pc → step s = .next (s.raise (.outOfRange 256))))

/-- PRN (spec/41_halt_and_output.md R62): the register's byte, unsigned, is appended to the output sequence. That the core delivers
a byte on an output port is the spec's own choice (D17: log 11). -/
def Obligations.PrnEmitsTheRegisterByte : Prop :=
  (∀ (r : Byte) (h : r.toNat < 8) (s : State), ∃ t, exec (.prn r) s = .next t ∧ t.out = s.out ++ [s.reg ⟨r.toNat, h⟩] ∧
    t.pc = s.pc + 2 ∧ t.status = s.status) ∧
  (∀ (r : Byte) (s : State), 8 ≤ r.toNat → exec (.prn r) s = .next (s.raise (.invalidRegister r))) ∧
  (∀ r : Byte, encode (.prn r) = [71, r]) ∧
  (∀ s : State, s.status = .running → s.pc = 255 → s.readByte 255 = 71 → step s = .next (s.raise (.outOfRange 256)))

/-- R64 of spec/42_load_and_alu.md: LDI writes the immediate byte, whatever it is, to the register, R7 included; its encoding; an
invalid register; and the overrun of a used operand at 254 and 255. -/
def Obligations.LdiLoadsTheImmediate : Prop :=
  (∀ (r imm : Byte) (h : r.toNat < 8) (s : State), ∃ t, exec (.ldi r imm) s = .next t ∧ t.reg ⟨r.toNat, h⟩ = imm ∧
    (∀ j : RegIndex, j.val ≠ r.toNat → t.reg j = s.reg j) ∧ t.pc = s.pc + 3 ∧ t.status = s.status ∧ t.fl = s.fl) ∧
  (∀ (r imm : Byte) (s : State), 8 ≤ r.toNat → exec (.ldi r imm) s = .next (s.raise (.invalidRegister r))) ∧
  (∀ r imm : Byte, encode (.ldi r imm) = [130, r, imm]) ∧
  (∀ s : State, s.status = .running → (s.pc = 254 ∨ s.pc = 255) → s.readByte s.pc = 130 →
    step s = .next (s.raise (.outOfRange 256)))

/-- R65 of spec/42_load_and_alu.md: MUL leaves the product of the two registers modulo 256 in the first, squares it where both are
the same, and writes no flag; its encoding; invalid registers, operand a first; and the overrun at 254 and 255. -/
def Obligations.MulStoresTheProductModulo256 : Prop :=
  (∀ (ra rb : Byte) (ha : ra.toNat < 8) (hb : rb.toNat < 8) (s : State), ∃ t, exec (.mul ra rb) s = .next t ∧
    (t.reg ⟨ra.toNat, ha⟩).toNat = (s.reg ⟨ra.toNat, ha⟩).toNat * (s.reg ⟨rb.toNat, hb⟩).toNat % 256 ∧
    (∀ j : RegIndex, j.val ≠ ra.toNat → t.reg j = s.reg j) ∧ t.pc = s.pc + 3 ∧ t.status = s.status ∧ t.fl = s.fl) ∧
  (∀ (ra rb : Byte) (s : State), 8 ≤ ra.toNat → exec (.mul ra rb) s = .next (s.raise (.invalidRegister ra))) ∧
  (∀ (ra rb : Byte) (s : State), ra.toNat < 8 → 8 ≤ rb.toNat →
    exec (.mul ra rb) s = .next (s.raise (.invalidRegister rb))) ∧
  (∀ ra rb : Byte, encode (.mul ra rb) = [162, ra, rb]) ∧
  (∀ s : State, s.status = .running → (s.pc = 254 ∨ s.pc = 255) → s.readByte s.pc = 162 →
    step s = .next (s.raise (.outOfRange 256)))

/-- R66 of spec/42_load_and_alu.md: ADD leaves the sum of the two registers modulo 256 in the first, doubles it where both are the
same, and writes no flag; its encoding; invalid registers, operand a first; and the overrun at 254 and 255. -/
def Obligations.AddStoresTheSumModulo256 : Prop :=
  (∀ (ra rb : Byte) (ha : ra.toNat < 8) (hb : rb.toNat < 8) (s : State), ∃ t, exec (.add ra rb) s = .next t ∧
    (t.reg ⟨ra.toNat, ha⟩).toNat = ((s.reg ⟨ra.toNat, ha⟩).toNat + (s.reg ⟨rb.toNat, hb⟩).toNat) % 256 ∧
    (∀ j : RegIndex, j.val ≠ ra.toNat → t.reg j = s.reg j) ∧ t.pc = s.pc + 3 ∧ t.status = s.status ∧ t.fl = s.fl) ∧
  (∀ (ra rb : Byte) (s : State), 8 ≤ ra.toNat → exec (.add ra rb) s = .next (s.raise (.invalidRegister ra))) ∧
  (∀ (ra rb : Byte) (s : State), ra.toNat < 8 → 8 ≤ rb.toNat →
    exec (.add ra rb) s = .next (s.raise (.invalidRegister rb))) ∧
  (∀ ra rb : Byte, encode (.add ra rb) = [160, ra, rb]) ∧
  (∀ s : State, s.status = .running → (s.pc = 254 ∨ s.pc = 255) → s.readByte s.pc = 160 →
    step s = .next (s.raise (.outOfRange 256)))

/-- PUSH (spec/43_stack.md R68): SP goes down by one modulo 256, and the cell it then names takes the register, read after the
decrement, so that `PUSH R7` stores the decremented SP (the order is the spec's own choice, D8: log 8). -/
def Obligations.PushStoresAtTheDecrementedStackPointer : Prop :=
  (∀ (r : Byte) (h : r.toNat < 8) (s : State), Memory.wf s.mem = true → ∃ t, exec (.push r) s = .next t ∧
    (t.reg 7).toNat = ((s.reg 7).toNat + 255) % 256 ∧
    t.readByte (t.reg 7).toNat = (if r = 7 then t.reg 7 else s.reg ⟨r.toNat, h⟩) ∧
    t.pc = s.pc + 2 ∧ t.status = s.status) ∧
  (∀ (r : Byte) (s : State), 8 ≤ r.toNat → exec (.push r) s = .next (s.raise (.invalidRegister r))) ∧
  (∀ r : Byte, encode (.push r) = [69, r]) ∧
  (∀ s : State, s.status = .running → s.pc = 255 → s.readByte 255 = 69 → step s = .next (s.raise (.outOfRange 256)))

/-- POP (spec/43_stack.md R69): the register takes the byte at SP, then SP goes up by one modulo 256; `POP R7` leaves the byte
plus one in SP (the order is the spec's own choice, D8: log 8). -/
def Obligations.PopLoadsFromTheStackPointer : Prop :=
  (∀ (r : Byte) (h : r.toNat < 8) (s : State), ∃ t, exec (.pop r) s = .next t ∧
    (r ≠ 7 → t.reg ⟨r.toNat, h⟩ = s.readByte (s.reg 7).toNat ∧ (t.reg 7).toNat = ((s.reg 7).toNat + 1) % 256) ∧
    (r = 7 → (t.reg 7).toNat = ((s.readByte (s.reg 7).toNat).toNat + 1) % 256) ∧
    t.pc = s.pc + 2 ∧ t.status = s.status) ∧
  (∀ (r : Byte) (s : State), 8 ≤ r.toNat → exec (.pop r) s = .next (s.raise (.invalidRegister r))) ∧
  (∀ r : Byte, encode (.pop r) = [70, r]) ∧
  (∀ s : State, s.status = .running → s.pc = 255 → s.readByte 255 = 70 → step s = .next (s.raise (.outOfRange 256)))

/-- CALL (spec/44_call_return.md R71): the return address pc + 2 is pushed and pc takes the register, read after the decrement;
at 254 and above the return address is no byte and `OutOfRange` is raised, after the register check (the spec's own choices, D8
and D9: log 8, log 17). -/
def Obligations.CallPushesTheReturnAddressAndJumps : Prop :=
  (∀ (r : Byte) (h : r.toNat < 8) (s : State), Memory.wf s.mem = true → s.pc ≤ 253 → ∃ t, exec (.call r) s = .next t ∧
    (t.reg 7).toNat = ((s.reg 7).toNat + 255) % 256 ∧
    (t.readByte (t.reg 7).toNat).toNat = s.pc + 2 ∧
    t.pc = (if r = 7 then t.reg 7 else s.reg ⟨r.toNat, h⟩).toNat ∧ t.status = s.status) ∧
  (∀ (r : Byte) (s : State), 8 ≤ r.toNat → exec (.call r) s = .next (s.raise (.invalidRegister r))) ∧
  (∀ (r : Byte) (s : State), r.toNat < 8 → 254 ≤ s.pc → exec (.call r) s = .next (s.raise (.outOfRange (s.pc + 2)))) ∧
  (∀ r : Byte, encode (.call r) = [80, r]) ∧
  (∀ s : State, s.status = .running → s.pc = 255 → s.readByte 255 = 80 → step s = .next (s.raise (.outOfRange 256)))

/-- R72 of spec/44_call_return.md: RET loads pc with the byte at SP, whatever put it there, with no advance, then SP goes up by one
modulo 256; the cell keeps its byte; its encoding; and the overrun at fetch, its one fault, under `FaultAlways`. -/
def Obligations.RetLoadsPcFromTheStack : Prop :=
  (∀ s : State, ∃ t, exec .ret s = .next t ∧ t.pc = (s.readByte (s.reg 7).toNat).toNat ∧
    (t.reg 7).toNat = ((s.reg 7).toNat + 1) % 256 ∧ t.readByte (s.reg 7).toNat = s.readByte (s.reg 7).toNat ∧
    t.status = s.status ∧ t.fl = s.fl) ∧
  encode .ret = [17] ∧
  (∀ s : State, s.status = .running → s.readByte s.pc = 17 → s.pc < 256 →
    (s.cfg.operandOverrun = .faultIfUsed ∨ s.pc ≤ 253 → ∃ t, step s = .next t ∧
      t.pc = (s.readByte (s.reg 7).toNat).toNat ∧ (t.reg 7).toNat = ((s.reg 7).toNat + 1) % 256 ∧ t.status = .running) ∧
    (s.cfg.operandOverrun = .faultAlways → 254 ≤ s.pc → step s = .next (s.raise (.outOfRange 256))))

/-- R76 of spec/60_exceptions.md: `InvalidRegister` is raised for operand a of PRN, LDI, MUL, ADD, PUSH, POP and CALL and operand b
of MUL and ADD, and for nothing else: not LDI's immediate, not HLT, RET or an unknown opcode. -/
def Obligations.InvalidRegisterIsRaisedExactlyByRegisterOperands : Prop :=
  (∀ (s : State) (r x : Byte), 8 ≤ r.toNat →
    exec (.prn r) s = .next (s.raise (.invalidRegister r)) ∧ exec (.ldi r x) s = .next (s.raise (.invalidRegister r)) ∧
    exec (.mul r x) s = .next (s.raise (.invalidRegister r)) ∧ exec (.add r x) s = .next (s.raise (.invalidRegister r)) ∧
    exec (.push r) s = .next (s.raise (.invalidRegister r)) ∧ exec (.pop r) s = .next (s.raise (.invalidRegister r)) ∧
    exec (.call r) s = .next (s.raise (.invalidRegister r)) ∧
    (x.toNat < 8 → exec (.mul x r) s = .next (s.raise (.invalidRegister r)) ∧
      exec (.add x r) s = .next (s.raise (.invalidRegister r)))) ∧
  (∀ (i : Instr) (s t : State) (r : Byte), s.status = .running → exec i s = .next t → t.status = .faulted (.invalidRegister r) →
    8 ≤ r.toNat ∧ (i = .prn r ∨ (∃ x, i = .ldi r x) ∨ (∃ x, i = .mul r x) ∨ (∃ x, i = .mul x r) ∨ (∃ x, i = .add r x) ∨
      (∃ x, i = .add x r) ∨ i = .push r ∨ i = .pop r ∨ i = .call r)) ∧
  (∀ (s t : State) (r : Byte), s.status = .running → lookup (s.readByte s.pc) = none → step s = .next t →
    t.status ≠ .faulted (.invalidRegister r))

/-- The table of fault kinds (spec/60_exceptions.md R74): the numeric code of each kind, whatever its information; the codes are the
spec's own choice (D6: log 19). -/
def Obligations.FaultCodesAreTheTabledOnes : Prop :=
  ∀ (e : CoreError) (code : Nat), e.code = code ↔
    (code = 1 ∧ ∃ addr, e = .outOfRange addr) ∨ (code = 2 ∧ ∃ i, e = .invalidRegister i) ∨
    (code = 3 ∧ ∃ n, e = .programTooLarge n) ∨ (code = 4 ∧ ∃ name, e = .unsupportedOperation name) ∨
    (code = 5 ∧ ∃ ir pc, e = .unknownOpcode ir pc)

/-! ### The shared operations -/

/-- R11 of spec/10_state.md: a register write stores its value modulo 256, whatever integer it is, and R7 wraps like every other
register, from 0 to 255 and from 255 to 0. -/
def Obligations.RegisterWriteStoresModulo256 : Prop :=
  (∀ (s : State) (i : RegIndex) (v : Int), (((s.setReg i v).reg i).toNat : Int) = v % 256) ∧
  (∀ (s : State) (i j : RegIndex) (v : Int), j ≠ i → (s.setReg i v).reg j = s.reg j) ∧
  (∀ s : State, s.reg 7 = 0 → (s.setReg 7 (spMinusOne s)).reg 7 = 255) ∧
  (∀ s : State, s.reg 7 = 255 → (s.setReg 7 (spPlusOne s)).reg 7 = 0)

/-- R12 of spec/10_state.md: an operand byte below 8 selects that register; any other raises `InvalidRegister` of the byte itself,
never reduced or masked. -/
def Obligations.RegisterOperandIsNeverMasked : Prop :=
  ∀ r : Byte, (∀ h : r.toNat < 8, regOperand r = .ok ⟨r.toNat, h⟩) ∧
    (8 ≤ r.toNat → regOperand r = .error (.invalidRegister r))

/-- The byte accesses (spec/20_memory.md R26, R27; the value of a write is a byte by type, the spec's own choice D23: log 14): a
read gives the cell's byte, a write changes its one cell only and keeps the canonical form, and 256 or above is `OutOfRange`. -/
def Obligations.MemoryAccessesKeepToTheirCell : Prop :=
  ∀ (s : State) (addr : Nat) (v : Byte), Memory.wf s.mem = true →
    (addr < 256 → s.memRead addr = .ok (s.readByte addr) ∧
      ∃ t, s.memWrite addr v = .ok t ∧ t.memRead addr = .ok v ∧ (∀ x, x ≠ addr → t.memRead x = s.memRead x) ∧
        Memory.wf t.mem = true) ∧
    (256 ≤ addr → s.memRead addr = .error (.outOfRange addr) ∧ s.memWrite addr v = .error (.outOfRange addr))

/-- The host's line for an emitted byte (spec/41_halt_and_output.md R63, D17: log 11): its unsigned decimal value, no padding, then
a newline. -/
def Obligations.HostLineIsTheUnpaddedDecimal : Prop :=
  ∀ v : Byte, ∃ digits, hostLine v = digits ++ ['\n'] ∧ digits ≠ [] ∧ digitsFrom 10 0 digits = some v.toNat ∧
    (digits.head? = some '0' → v = 0 ∧ digits = ['0'])

/-! ### Frames -/

/-- What LDI, MUL and ADD leave unchanged (spec/10_state.md R14): every register but operand a's, the latches, the flags register,
the output, the log, the configuration, the status but for a fault, and every byte of memory. -/
def Obligations.LdiMulAddChangeOneRegister : Prop :=
  ∀ (r x : Byte) (i : Instr) (s t : State), (i = .ldi r x ∨ i = .mul r x ∨ i = .add r x) → exec i s = .next t →
    (∀ j : RegIndex, j.val ≠ r.toNat → t.reg j = s.reg j) ∧ t.fl = s.fl ∧ t.cfg = s.cfg ∧ t.ir = s.ir ∧ t.a = s.a ∧ t.b = s.b ∧
    t.out = s.out ∧ t.diag = s.diag ∧ (t.status = s.status ∨ ∃ e, t.status = .faulted e) ∧
    (∀ y, t.readByte y = s.readByte y)

/-- What HLT and PRN leave unchanged (spec/10_state.md R14): every register, the latches, the flags register, the log, the
configuration and every byte of memory; HLT leaves the output too, and PRN the status but for a fault, and the output but for its
byte. -/
def Obligations.HltAndPrnChangeNoRegisterAndNoMemory : Prop :=
  ∀ (r : Byte) (i : Instr) (s t : State), (i = .hlt ∨ i = .prn r) → exec i s = .next t →
    (∀ j, t.reg j = s.reg j) ∧ t.fl = s.fl ∧ t.cfg = s.cfg ∧ t.ir = s.ir ∧ t.a = s.a ∧ t.b = s.b ∧ t.diag = s.diag ∧
    (i = .hlt → t.out = s.out) ∧
    (i = .prn r → t.out = s.out ∨ ∃ h : r.toNat < 8, t.out = s.out ++ [s.reg ⟨r.toNat, h⟩]) ∧
    (i = .prn r → t.status = s.status ∨ ∃ e, t.status = .faulted e) ∧ (∀ y, t.readByte y = s.readByte y)

/-- What PUSH and CALL leave unchanged (spec/10_state.md R14): every register but the stack pointer R7, the latches, the flags
register, the output, the log, the configuration, the status but for a fault, and every byte of memory but the one stored to, the
decremented stack pointer's (the register write of `SP - 1` the meaning uses). -/
def Obligations.PushAndCallStoreOneByte : Prop :=
  ∀ (r : Byte) (i : Instr) (s t : State), (i = .push r ∨ i = .call r) → exec i s = .next t →
    (∀ j : RegIndex, j ≠ 7 → t.reg j = s.reg j) ∧ t.fl = s.fl ∧ t.cfg = s.cfg ∧ t.ir = s.ir ∧ t.a = s.a ∧ t.b = s.b ∧
    t.out = s.out ∧ t.diag = s.diag ∧ (t.status = s.status ∨ ∃ e, t.status = .faulted e) ∧
    (∀ addr, addr = (s.setReg 7 (spMinusOne s)).sp.toNat → ∀ y, y ≠ addr → t.readByte y = s.readByte y)

/-- What POP and RET leave unchanged (spec/10_state.md R14): every register but the stack pointer R7 and POP's operand, the latches,
the flags register, the output, the log, the configuration, the status but for a fault, and every byte of memory. -/
def Obligations.PopAndRetStoreNothing : Prop :=
  ∀ (r : Byte) (i : Instr) (s t : State), (i = .pop r ∨ i = .ret) → exec i s = .next t →
    (∀ j : RegIndex, j ≠ 7 → (i = .pop r → j.val ≠ r.toNat) → t.reg j = s.reg j) ∧ t.fl = s.fl ∧ t.cfg = s.cfg ∧ t.ir = s.ir ∧
    t.a = s.a ∧ t.b = s.b ∧ t.out = s.out ∧ t.diag = s.diag ∧ (t.status = s.status ∨ ∃ e, t.status = .faulted e) ∧
    (∀ y, t.readByte y = s.readByte y)

/-! ### The stack and the call discipline -/

/-- PUSH then POP (spec/43_stack.md R70, derived by the spec from R11, R68 and R69; the cases of R7 are D8: log 8): for registers
other than R7 the value moves and SP is restored; from `PUSH R7` the second register gets the pre-PUSH SP minus one. -/
def Obligations.PushThenPopMovesTheRegister : Prop :=
  ∀ (r r₂ : Byte) (h : r.toNat < 8) (h₂ : r₂.toNat < 7) (s : State), Memory.wf s.mem = true →
    ∃ t u, exec (.push r) s = .next t ∧ exec (.pop r₂) t = .next u ∧ u.reg 7 = s.reg 7 ∧
      (r ≠ 7 → u.reg ⟨r₂.toNat, Nat.lt_succ_of_lt h₂⟩ = s.reg ⟨r.toNat, h⟩) ∧
      (r = 7 → (u.reg ⟨r₂.toNat, Nat.lt_succ_of_lt h₂⟩).toNat = ((s.reg 7).toNat + 255) % 256) ∧
      u.pc = s.pc + 4

/-- CALL then RET (spec/44_call_return.md R73, derived by the spec from R57, R71 and R72): a RET that finds the stack as the CALL
left it returns to the byte after the CALL, with SP restored and the registers of the caller kept. -/
def Obligations.CallThenRetReturnsAfterTheCall : Prop :=
  ∀ (r : Byte) (s : State), r.toNat < 8 → Memory.wf s.mem = true → s.pc ≤ 253 →
    ∃ t u, exec (.call r) s = .next t ∧ exec .ret t = .next u ∧ u.pc = s.pc + 2 ∧ (∀ j, u.reg j = s.reg j) ∧
      u.status = s.status
end

