-- ==== Sys2Proof/Laws/Decode.lean ====
section
/-! SUPPORT. The small lemmas of the opcode map, the decoder and the encoder. -/

namespace Sys2Proof

/-- Every row of the opcode map is found under its own byte. -/
@[simp] theorem lookup_code (op : Op) : lookup op.row.code = some op := by cases op <;> rfl

/-- What the lookup finds is the row whose byte was asked for. -/
theorem lookup_eq_some {ir : Byte} {op : Op} (h : lookup ir = some op) : ir = op.row.code := by
  have := List.find?_some h
  simpa using (beq_iff_eq.mp this).symm

theorem lookup_eq_some_iff {ir : Byte} {op : Op} : lookup ir = some op ↔ ir = op.row.code :=
  ⟨lookup_eq_some, fun h => h ▸ lookup_code op⟩

/-- The number of operand bytes the handler reads is the opcode's operand count, for each row. -/
theorem operandCount_code (op : Op) : operandCount op.row.code = op.row.used := by cases op <;> rfl

theorem advanceLength_code (op : Op) : advanceLength op.row.code = op.row.used + 1 := by cases op <;> rfl

theorem operandCount_le (ir : Byte) : operandCount ir ≤ 3 := by
  have : ir.toNat < 256 := ir.isLt
  simp only [operandCount, BitVec.toNat_ushiftRight, Nat.shiftRight_eq_div_pow]
  omega

theorem advanceLength_le (ir : Byte) : advanceLength ir ≤ 4 := Nat.succ_le_succ (operandCount_le ir)

theorem decode_unknown {ir : Byte} (h : lookup ir = none) (a b : Option Byte) : decode ir a b = .error (.unknownOpcode ir) := by
  simp [decode, h]

theorem decode_known {ir : Byte} {op : Op} (h : lookup ir = some op) (a b : Option Byte) :
    decode ir a b = op.withOperands a b := by
  simp [decode, h]

/-- Decoding from the opcode byte and the operand bytes of an encoding, whatever the latches of unused operands hold. -/
theorem decode_code (op : Op) (a b : Option Byte) : decode op.row.code a b = op.withOperands a b :=
  decode_known (lookup_code op) a b

@[simp] theorem operandA_some (x : Byte) : operandA (some x) = .ok x := rfl
@[simp] theorem operandA_none : operandA none = .error .operandAAbsent := rfl
@[simp] theorem operandB_some (x : Byte) : operandB (some x) = .ok x := rfl
@[simp] theorem operandB_none : operandB none = .error .operandBAbsent := rfl

/-- The operands of an opcode that uses none, one or two of them, where the latches it uses are full. -/
theorem Op.withOperands_full (op : Op) (x y : Byte) : ∃ i, op.withOperands (some x) (some y) = .ok i ∧ i.op = op := by
  cases op <;> exact ⟨_, rfl, rfl⟩

/-- What an opcode's operands give is an instruction of that opcode. -/
theorem Op.withOperands_op {op : Op} {a b : Option Byte} {i : Instr} (h : op.withOperands a b = .ok i) : i.op = op := by
  cases op <;> cases a <;> cases b <;> cases h <;> rfl

/-- The decoder's refusal of a known opcode is an absent operand the instruction uses, a before b. -/
theorem Op.withOperands_error {op : Op} {a b : Option Byte} {e : DecodeError} (h : op.withOperands a b = .error e) :
    (e = .operandAAbsent ∧ a = none ∧ 1 ≤ op.row.used) ∨ (e = .operandBAbsent ∧ a ≠ none ∧ b = none ∧ op.row.used = 2) := by
  cases op <;> cases a <;> cases b <;> cases h <;> simp [Op.row]

/-- The decoder answers an instruction only of the opcode found under its byte. -/
theorem decode_op {ir : Byte} {a b : Option Byte} {i : Instr} (h : decode ir a b = .ok i) : lookup ir = some i.op := by
  unfold decode at h
  split at h
  · cases h
  · next op hop => rw [hop, Op.withOperands_op h]

end Sys2Proof
end

