-- ==== Sys2Proof/Laws/State.lean ====
section
/-! SUPPORT. One lemma per field per update of the state, true by rfl, so that no later proof unfolds a record update; and the
register and byte reads through each update. -/

namespace Sys2Proof.Machine

variable (s : State)

/-! #### setReg -/

@[simp] theorem State.setReg_cfg (i : RegIndex) (v : Int) : (s.setReg i v).cfg = s.cfg := rfl
@[simp] theorem State.setReg_mem (i : RegIndex) (v : Int) : (s.setReg i v).mem = s.mem := rfl
@[simp] theorem State.setReg_regs (i : RegIndex) (v : Int) : (s.setReg i v).regs = s.regs.set i (BitVec.ofInt 8 v) := rfl
@[simp] theorem State.setReg_pc (i : RegIndex) (v : Int) : (s.setReg i v).pc = s.pc := rfl
@[simp] theorem State.setReg_fl (i : RegIndex) (v : Int) : (s.setReg i v).fl = s.fl := rfl
@[simp] theorem State.setReg_status (i : RegIndex) (v : Int) : (s.setReg i v).status = s.status := rfl
@[simp] theorem State.setReg_ir (i : RegIndex) (v : Int) : (s.setReg i v).ir = s.ir := rfl
@[simp] theorem State.setReg_a (i : RegIndex) (v : Int) : (s.setReg i v).a = s.a := rfl
@[simp] theorem State.setReg_b (i : RegIndex) (v : Int) : (s.setReg i v).b = s.b := rfl
@[simp] theorem State.setReg_out (i : RegIndex) (v : Int) : (s.setReg i v).out = s.out := rfl
@[simp] theorem State.setReg_diag (i : RegIndex) (v : Int) : (s.setReg i v).diag = s.diag := rfl
@[simp] theorem State.setReg_readByte (i : RegIndex) (v : Int) (x : Nat) : (s.setReg i v).readByte x = s.readByte x := rfl
@[simp] theorem State.setReg_memRead (i : RegIndex) (v : Int) (x : Nat) : (s.setReg i v).memRead x = s.memRead x := rfl

/-! #### setPc -/

@[simp] theorem State.setPc_cfg (t : Nat) : (s.setPc t).cfg = s.cfg := rfl
@[simp] theorem State.setPc_mem (t : Nat) : (s.setPc t).mem = s.mem := rfl
@[simp] theorem State.setPc_regs (t : Nat) : (s.setPc t).regs = s.regs := rfl
@[simp] theorem State.setPc_pc (t : Nat) : (s.setPc t).pc = t := rfl
@[simp] theorem State.setPc_fl (t : Nat) : (s.setPc t).fl = s.fl := rfl
@[simp] theorem State.setPc_status (t : Nat) : (s.setPc t).status = s.status := rfl
@[simp] theorem State.setPc_ir (t : Nat) : (s.setPc t).ir = s.ir := rfl
@[simp] theorem State.setPc_a (t : Nat) : (s.setPc t).a = s.a := rfl
@[simp] theorem State.setPc_b (t : Nat) : (s.setPc t).b = s.b := rfl
@[simp] theorem State.setPc_out (t : Nat) : (s.setPc t).out = s.out := rfl
@[simp] theorem State.setPc_diag (t : Nat) : (s.setPc t).diag = s.diag := rfl
@[simp] theorem State.setPc_reg (t : Nat) (j : RegIndex) : (s.setPc t).reg j = s.reg j := rfl
@[simp] theorem State.setPc_sp (t : Nat) : (s.setPc t).sp = s.sp := rfl
@[simp] theorem State.setPc_readByte (t : Nat) (x : Nat) : (s.setPc t).readByte x = s.readByte x := rfl
@[simp] theorem State.setPc_memRead (t : Nat) (x : Nat) : (s.setPc t).memRead x = s.memRead x := rfl

/-! #### setByte -/

@[simp] theorem State.setByte_cfg (addr : Nat) (v : Byte) : (s.setByte addr v).cfg = s.cfg := rfl
@[simp] theorem State.setByte_mem (addr : Nat) (v : Byte) : (s.setByte addr v).mem = Memory.write s.mem addr v := rfl
@[simp] theorem State.setByte_regs (addr : Nat) (v : Byte) : (s.setByte addr v).regs = s.regs := rfl
@[simp] theorem State.setByte_pc (addr : Nat) (v : Byte) : (s.setByte addr v).pc = s.pc := rfl
@[simp] theorem State.setByte_fl (addr : Nat) (v : Byte) : (s.setByte addr v).fl = s.fl := rfl
@[simp] theorem State.setByte_status (addr : Nat) (v : Byte) : (s.setByte addr v).status = s.status := rfl
@[simp] theorem State.setByte_ir (addr : Nat) (v : Byte) : (s.setByte addr v).ir = s.ir := rfl
@[simp] theorem State.setByte_a (addr : Nat) (v : Byte) : (s.setByte addr v).a = s.a := rfl
@[simp] theorem State.setByte_b (addr : Nat) (v : Byte) : (s.setByte addr v).b = s.b := rfl
@[simp] theorem State.setByte_out (addr : Nat) (v : Byte) : (s.setByte addr v).out = s.out := rfl
@[simp] theorem State.setByte_diag (addr : Nat) (v : Byte) : (s.setByte addr v).diag = s.diag := rfl
@[simp] theorem State.setByte_reg (addr : Nat) (v : Byte) (j : RegIndex) : (s.setByte addr v).reg j = s.reg j := rfl
@[simp] theorem State.setByte_sp (addr : Nat) (v : Byte) : (s.setByte addr v).sp = s.sp := rfl

/-! #### emit -/

@[simp] theorem State.emit_cfg (v : Byte) : (s.emit v).cfg = s.cfg := rfl
@[simp] theorem State.emit_mem (v : Byte) : (s.emit v).mem = s.mem := rfl
@[simp] theorem State.emit_regs (v : Byte) : (s.emit v).regs = s.regs := rfl
@[simp] theorem State.emit_pc (v : Byte) : (s.emit v).pc = s.pc := rfl
@[simp] theorem State.emit_fl (v : Byte) : (s.emit v).fl = s.fl := rfl
@[simp] theorem State.emit_status (v : Byte) : (s.emit v).status = s.status := rfl
@[simp] theorem State.emit_ir (v : Byte) : (s.emit v).ir = s.ir := rfl
@[simp] theorem State.emit_a (v : Byte) : (s.emit v).a = s.a := rfl
@[simp] theorem State.emit_b (v : Byte) : (s.emit v).b = s.b := rfl
@[simp] theorem State.emit_out (v : Byte) : (s.emit v).out = s.out ++ [v] := rfl
@[simp] theorem State.emit_diag (v : Byte) : (s.emit v).diag = s.diag := rfl
@[simp] theorem State.emit_reg (v : Byte) (j : RegIndex) : (s.emit v).reg j = s.reg j := rfl
@[simp] theorem State.emit_sp (v : Byte) : (s.emit v).sp = s.sp := rfl
@[simp] theorem State.emit_readByte (v : Byte) (x : Nat) : (s.emit v).readByte x = s.readByte x := rfl
@[simp] theorem State.emit_memRead (v : Byte) (x : Nat) : (s.emit v).memRead x = s.memRead x := rfl

/-! #### halt -/

@[simp] theorem State.halt_cfg : s.halt.cfg = s.cfg := rfl
@[simp] theorem State.halt_mem : s.halt.mem = s.mem := rfl
@[simp] theorem State.halt_regs : s.halt.regs = s.regs := rfl
@[simp] theorem State.halt_pc : s.halt.pc = s.pc := rfl
@[simp] theorem State.halt_fl : s.halt.fl = s.fl := rfl
@[simp] theorem State.halt_status : s.halt.status = .halted := rfl
@[simp] theorem State.halt_ir : s.halt.ir = s.ir := rfl
@[simp] theorem State.halt_a : s.halt.a = s.a := rfl
@[simp] theorem State.halt_b : s.halt.b = s.b := rfl
@[simp] theorem State.halt_out : s.halt.out = s.out := rfl
@[simp] theorem State.halt_diag : s.halt.diag = s.diag := rfl
@[simp] theorem State.halt_reg (j : RegIndex) : s.halt.reg j = s.reg j := rfl
@[simp] theorem State.halt_sp : s.halt.sp = s.sp := rfl
@[simp] theorem State.halt_readByte (x : Nat) : s.halt.readByte x = s.readByte x := rfl
@[simp] theorem State.halt_memRead (x : Nat) : s.halt.memRead x = s.memRead x := rfl

/-! #### logUnknown -/

@[simp] theorem State.logUnknown_cfg : s.logUnknown.cfg = s.cfg := rfl
@[simp] theorem State.logUnknown_mem : s.logUnknown.mem = s.mem := rfl
@[simp] theorem State.logUnknown_regs : s.logUnknown.regs = s.regs := rfl
@[simp] theorem State.logUnknown_pc : s.logUnknown.pc = s.pc := rfl
@[simp] theorem State.logUnknown_fl : s.logUnknown.fl = s.fl := rfl
@[simp] theorem State.logUnknown_status : s.logUnknown.status = s.status := rfl
@[simp] theorem State.logUnknown_ir : s.logUnknown.ir = s.ir := rfl
@[simp] theorem State.logUnknown_a : s.logUnknown.a = s.a := rfl
@[simp] theorem State.logUnknown_b : s.logUnknown.b = s.b := rfl
@[simp] theorem State.logUnknown_out : s.logUnknown.out = s.out := rfl
@[simp] theorem State.logUnknown_diag : s.logUnknown.diag = s.diag ++ [(s.pc, s.ir)] := rfl
@[simp] theorem State.logUnknown_reg (j : RegIndex) : s.logUnknown.reg j = s.reg j := rfl
@[simp] theorem State.logUnknown_sp : s.logUnknown.sp = s.sp := rfl
@[simp] theorem State.logUnknown_readByte (x : Nat) : s.logUnknown.readByte x = s.readByte x := rfl
@[simp] theorem State.logUnknown_memRead (x : Nat) : s.logUnknown.memRead x = s.memRead x := rfl

/-! #### raise -/

@[simp] theorem State.raise_cfg (e : CoreError) : (s.raise e).cfg = s.cfg := rfl
@[simp] theorem State.raise_mem (e : CoreError) : (s.raise e).mem = s.mem := rfl
@[simp] theorem State.raise_regs (e : CoreError) : (s.raise e).regs = s.regs := rfl
@[simp] theorem State.raise_pc (e : CoreError) : (s.raise e).pc = s.pc := rfl
@[simp] theorem State.raise_fl (e : CoreError) : (s.raise e).fl = s.fl := rfl
@[simp] theorem State.raise_status (e : CoreError) : (s.raise e).status = .faulted e := rfl
@[simp] theorem State.raise_ir (e : CoreError) : (s.raise e).ir = s.ir := rfl
@[simp] theorem State.raise_a (e : CoreError) : (s.raise e).a = s.a := rfl
@[simp] theorem State.raise_b (e : CoreError) : (s.raise e).b = s.b := rfl
@[simp] theorem State.raise_out (e : CoreError) : (s.raise e).out = s.out := rfl
@[simp] theorem State.raise_diag (e : CoreError) : (s.raise e).diag = s.diag := rfl
@[simp] theorem State.raise_reg (e : CoreError) (j : RegIndex) : (s.raise e).reg j = s.reg j := rfl
@[simp] theorem State.raise_sp (e : CoreError) : (s.raise e).sp = s.sp := rfl
@[simp] theorem State.raise_readByte (e : CoreError) (x : Nat) : (s.raise e).readByte x = s.readByte x := rfl
@[simp] theorem State.raise_memRead (e : CoreError) (x : Nat) : (s.raise e).memRead x = s.memRead x := rfl

/-! #### advance -/

@[simp] theorem State.advance_cfg (opcode : Byte) : (s.advance opcode).cfg = s.cfg := rfl
@[simp] theorem State.advance_mem (opcode : Byte) : (s.advance opcode).mem = s.mem := rfl
@[simp] theorem State.advance_regs (opcode : Byte) : (s.advance opcode).regs = s.regs := rfl
@[simp] theorem State.advance_pc (opcode : Byte) : (s.advance opcode).pc = s.pc + advanceLength opcode := rfl
@[simp] theorem State.advance_fl (opcode : Byte) : (s.advance opcode).fl = s.fl := rfl
@[simp] theorem State.advance_status (opcode : Byte) : (s.advance opcode).status = s.status := rfl
@[simp] theorem State.advance_ir (opcode : Byte) : (s.advance opcode).ir = s.ir := rfl
@[simp] theorem State.advance_a (opcode : Byte) : (s.advance opcode).a = s.a := rfl
@[simp] theorem State.advance_b (opcode : Byte) : (s.advance opcode).b = s.b := rfl
@[simp] theorem State.advance_out (opcode : Byte) : (s.advance opcode).out = s.out := rfl
@[simp] theorem State.advance_diag (opcode : Byte) : (s.advance opcode).diag = s.diag := rfl
@[simp] theorem State.advance_reg (opcode : Byte) (j : RegIndex) : (s.advance opcode).reg j = s.reg j := rfl
@[simp] theorem State.advance_sp (opcode : Byte) : (s.advance opcode).sp = s.sp := rfl
@[simp] theorem State.advance_readByte (opcode : Byte) (x : Nat) : (s.advance opcode).readByte x = s.readByte x := rfl
@[simp] theorem State.advance_memRead (opcode : Byte) (x : Nat) : (s.advance opcode).memRead x = s.memRead x := rfl

/-! #### latched -/

@[simp] theorem State.latched_cfg : s.latched.cfg = s.cfg := rfl
@[simp] theorem State.latched_mem : s.latched.mem = s.mem := rfl
@[simp] theorem State.latched_regs : s.latched.regs = s.regs := rfl
@[simp] theorem State.latched_pc : s.latched.pc = s.pc := rfl
@[simp] theorem State.latched_fl : s.latched.fl = s.fl := rfl
@[simp] theorem State.latched_status : s.latched.status = s.status := rfl
@[simp] theorem State.latched_ir : s.latched.ir = s.readByte s.pc := rfl
@[simp] theorem State.latched_a : s.latched.a = s.latch (s.pc + 1) := rfl
@[simp] theorem State.latched_b : s.latched.b = s.latch (s.pc + 2) := rfl
@[simp] theorem State.latched_out : s.latched.out = s.out := rfl
@[simp] theorem State.latched_diag : s.latched.diag = s.diag := rfl
@[simp] theorem State.latched_reg (j : RegIndex) : s.latched.reg j = s.reg j := rfl
@[simp] theorem State.latched_sp : s.latched.sp = s.sp := rfl
@[simp] theorem State.latched_readByte (x : Nat) : s.latched.readByte x = s.readByte x := rfl
@[simp] theorem State.latched_memRead (x : Nat) : s.latched.memRead x = s.memRead x := rfl

/-! #### endCycle: the generic advance, or nothing for a control-flow instruction -/

theorem State.endCycle_advance {op : Op} (h : op.row.controlFlow = false) : s.endCycle op = s.advance op.row.code := by
  simp [State.endCycle, h]

theorem State.endCycle_controlFlow {op : Op} (h : op.row.controlFlow = true) : s.endCycle op = s := by
  simp [State.endCycle, h]

@[simp] theorem State.endCycle_cfg (op : Op) : (s.endCycle op).cfg = s.cfg := by unfold State.endCycle; split <;> rfl
@[simp] theorem State.endCycle_mem (op : Op) : (s.endCycle op).mem = s.mem := by unfold State.endCycle; split <;> rfl
@[simp] theorem State.endCycle_regs (op : Op) : (s.endCycle op).regs = s.regs := by unfold State.endCycle; split <;> rfl
@[simp] theorem State.endCycle_fl (op : Op) : (s.endCycle op).fl = s.fl := by unfold State.endCycle; split <;> rfl
@[simp] theorem State.endCycle_status (op : Op) : (s.endCycle op).status = s.status := by unfold State.endCycle; split <;> rfl
@[simp] theorem State.endCycle_ir (op : Op) : (s.endCycle op).ir = s.ir := by unfold State.endCycle; split <;> rfl
@[simp] theorem State.endCycle_a (op : Op) : (s.endCycle op).a = s.a := by unfold State.endCycle; split <;> rfl
@[simp] theorem State.endCycle_b (op : Op) : (s.endCycle op).b = s.b := by unfold State.endCycle; split <;> rfl
@[simp] theorem State.endCycle_out (op : Op) : (s.endCycle op).out = s.out := by unfold State.endCycle; split <;> rfl
@[simp] theorem State.endCycle_diag (op : Op) : (s.endCycle op).diag = s.diag := by unfold State.endCycle; split <;> rfl
@[simp] theorem State.endCycle_reg (op : Op) (j : RegIndex) : (s.endCycle op).reg j = s.reg j := by
  unfold State.endCycle; split <;> rfl
@[simp] theorem State.endCycle_readByte (op : Op) (x : Nat) : (s.endCycle op).readByte x = s.readByte x := by
  unfold State.endCycle; split <;> rfl

/-! #### A register after a register write -/

@[simp] theorem State.setReg_reg_same (i : RegIndex) (v : Int) : (s.setReg i v).reg i = BitVec.ofInt 8 v := by
  simp [State.reg]

theorem State.setReg_reg_other {i j : RegIndex} (v : Int) (h : j ≠ i) : (s.setReg i v).reg j = s.reg j := by
  simp only [State.reg, State.setReg_regs, Fin.getElem_fin]
  exact Vector.getElem_set_ne _ _ (fun e => h (Fin.ext e.symm))

theorem State.setReg_reg (i j : RegIndex) (v : Int) :
    (s.setReg i v).reg j = if j = i then BitVec.ofInt 8 v else s.reg j := by
  split
  · next h => subst h; exact State.setReg_reg_same s j v
  · next h => exact State.setReg_reg_other s v h

@[simp] theorem State.setReg_sp_same (v : Int) : (s.setReg spIndex v).sp = BitVec.ofInt 8 v := State.setReg_reg_same s spIndex v

theorem State.setReg_sp_other {i : RegIndex} (v : Int) (h : i ≠ spIndex) : (s.setReg i v).sp = s.sp :=
  State.setReg_reg_other s v (Ne.symm h)

/-- A byte written to a register is stored unchanged. -/
@[simp] theorem ofInt_toNat (x : Byte) : BitVec.ofInt 8 (x.toNat : Int) = x := by simp

end Sys2Proof.Machine
end

