-- ==== Sys2Proof/Laws/Memory.lean ====
section
/-! SUPPORT. The laws of the memory array: a read after a write, and that every operation keeps the canonical form. -/

namespace Sys2Proof.Machine

/-! ### A read after a write -/

theorem Memory.read_cons (k : Nat) (v : Byte) (m : Memory) (x : Nat) (hm : k = x → Memory.read m x = unlistedByte) :
    Memory.read (Memory.cons k v m) x = if k = x then v else Memory.read m x := by
  unfold Memory.cons
  split
  · next hv => split
               · next hk => rw [hm hk, hv]
               · rfl
  · rfl

/-- Below the first listed address, memory reads as its reset content. -/
theorem Memory.read_below : ∀ (m : Memory) (lo x : Nat), Memory.wfFrom lo m = true → x < lo → Memory.read m x = unlistedByte
  | [], _, _, _, _ => rfl
  | (k, v) :: m, lo, x, h, hx => by
    simp only [Memory.wfFrom, Bool.and_eq_true, decide_eq_true_eq] at h
    have hk : k ≠ x := by omega
    simp only [Memory.read, if_neg hk]
    exact Memory.read_below m (k + 1) x h.2 (by omega)

theorem Memory.read_write_from : ∀ (m : Memory) (lo addr : Nat) (v : Byte) (x : Nat), Memory.wfFrom lo m = true →
    Memory.read (Memory.write m addr v) x = if addr = x then v else Memory.read m x
  | [], _, addr, v, x, _ => by
    simp only [Memory.write]
    exact Memory.read_cons addr v [] x (fun _ => rfl)
  | (k, w) :: m, lo, addr, v, x, h => by
    have h' := h
    simp only [Memory.wfFrom, Bool.and_eq_true, decide_eq_true_eq] at h'
    simp only [Memory.write]
    split
    · next hlt =>
      refine Memory.read_cons addr v _ x (fun hx => ?_)
      exact Memory.read_below ((k, w) :: m) k x (by simp [Memory.wfFrom, h']) (by omega)
    · split
      · next heq =>
        subst heq
        rw [Memory.read_cons addr v m x (fun hx => Memory.read_below m (addr + 1) x h'.2 (by omega))]
        simp only [Memory.read]
        split <;> rfl
      · next hne =>
        simp only [Memory.read, Memory.read_write_from m (k + 1) addr v x h'.2]
        by_cases hk : k = x
        · subst hk; simp [hne]
        · simp [hk]

/-- The two laws of a byte of memory: a read gives the value last written there, and every other cell is untouched. -/
theorem Memory.read_write {m : Memory} (h : Memory.wf m = true) (addr : Nat) (v : Byte) (x : Nat) :
    Memory.read (Memory.write m addr v) x = if addr = x then v else Memory.read m x :=
  Memory.read_write_from m 0 addr v x h

/-- Every cell but the one written is untouched, in any list of cells. -/
theorem Memory.read_write_other : ∀ (m : Memory) (addr : Nat) (v : Byte) (x : Nat), x ≠ addr →
    Memory.read (Memory.write m addr v) x = Memory.read m x := by
  have hc : ∀ (m : Memory) (addr : Nat) (v : Byte) (x : Nat), x ≠ addr →
      Memory.read (Memory.cons addr v m) x = Memory.read m x := by
    intro m addr v x hx
    rw [Memory.read_cons addr v m x (fun h => absurd h.symm hx), if_neg (Ne.symm hx)]
  intro m
  induction m with
  | nil => exact fun addr v x hx => hc [] addr v x hx
  | cons kw m ih =>
    intro addr v x hx
    simp only [Memory.write]
    split
    · exact hc _ addr v x hx
    · split
      · next heq =>
        rw [hc m addr v x hx, Memory.read, if_neg (by rw [← heq]; exact Ne.symm hx)]
      · simp only [Memory.read, ih addr v x hx]

/-! ### The canonical form is kept -/

theorem Memory.wfFrom_mono : ∀ (m : Memory) {lo lo' : Nat}, lo' ≤ lo → Memory.wfFrom lo m = true → Memory.wfFrom lo' m = true
  | [], _, _, _, _ => rfl
  | (k, v) :: m, lo, lo', hle, h => by
    simp only [Memory.wfFrom, Bool.and_eq_true, decide_eq_true_eq] at h ⊢
    exact ⟨⟨⟨by omega, h.1.1.2⟩, h.1.2⟩, h.2⟩

theorem Memory.wfFrom_cons {m : Memory} {lo addr : Nat} {v : Byte} (hlo : lo ≤ addr) (ha : addr < memSize)
    (h : Memory.wfFrom (addr + 1) m = true) : Memory.wfFrom lo (Memory.cons addr v m) = true := by
  unfold Memory.cons
  split
  · exact Memory.wfFrom_mono m (by omega) h
  · next hv => simp [Memory.wfFrom, hlo, hv, h]; exact ha

theorem Memory.wfFrom_write : ∀ (m : Memory) (lo addr : Nat) (v : Byte), Memory.wfFrom lo m = true → lo ≤ addr →
    addr < memSize → Memory.wfFrom lo (Memory.write m addr v) = true
  | [], _, _, _, _, hlo, ha => Memory.wfFrom_cons hlo ha rfl
  | (k, w) :: m, lo, addr, v, h, hlo, ha => by
    have h' := h
    simp only [Memory.wfFrom, Bool.and_eq_true, decide_eq_true_eq] at h'
    simp only [Memory.write]
    split
    · next hlt =>
      refine Memory.wfFrom_cons hlo ha ?_
      simp only [Memory.wfFrom, Bool.and_eq_true, decide_eq_true_eq]
      exact ⟨⟨⟨by omega, h'.1.1.2⟩, h'.1.2⟩, h'.2⟩
    · split
      · next heq => subst heq; exact Memory.wfFrom_cons hlo ha h'.2
      · next hlt hne =>
        simp only [Memory.wfFrom, Bool.and_eq_true, decide_eq_true_eq]
        exact ⟨h'.1, Memory.wfFrom_write m (k + 1) addr v h'.2 (by omega) ha⟩

/-- A write inside the array keeps the canonical form. -/
theorem Memory.wf_write {m : Memory} (h : Memory.wf m = true) {addr : Nat} (v : Byte) (ha : addr < memSize) :
    Memory.wf (Memory.write m addr v) = true :=
  Memory.wfFrom_write m 0 addr v h (Nat.zero_le _) ha

theorem Memory.wf_writeList : ∀ (vs : List Byte) {m : Memory} (addr : Nat), Memory.wf m = true →
    Memory.wf (Memory.writeList m addr vs) = true
  | [], _, _, h => h
  | v :: vs, m, addr, h => by
    simp only [Memory.writeList]
    split
    · next ha => exact Memory.wf_writeList vs (addr + 1) (Memory.wf_write h v ha)
    · exact Memory.wf_writeList vs (addr + 1) h

/-- Reset memory has the canonical form. -/
theorem Memory.wf_nil : Memory.wf [] = true := rfl

/-- Writing a list of bytes leaves the cells below it alone. -/
theorem Memory.read_writeList_below : ∀ (vs : List Byte) {m : Memory} (addr x : Nat), Memory.wf m = true → x < addr →
    Memory.read (Memory.writeList m addr vs) x = Memory.read m x
  | [], _, _, _, _, _ => rfl
  | v :: vs, m, addr, x, h, hx => by
    simp only [Memory.writeList]
    split
    · next ha =>
      rw [Memory.read_writeList_below vs (addr + 1) x (Memory.wf_write h v ha) (by omega), Memory.read_write h]
      simp [show addr ≠ x by omega]
    · exact Memory.read_writeList_below vs (addr + 1) x h (by omega)

/-- A cell after a list of bytes is written: the byte of the list that lies there, else what it held. -/
theorem Memory.read_writeList : ∀ (vs : List Byte) {m : Memory} (addr x : Nat), Memory.wf m = true → x < memSize →
    Memory.read (Memory.writeList m addr vs) x =
      if addr ≤ x then (vs[x - addr]?).getD (Memory.read m x) else Memory.read m x
  | [], _, _, _, _, _ => by simp [Memory.writeList]
  | v :: vs, m, addr, x, h, hx => by
    by_cases hlt : x < addr
    · rw [Memory.read_writeList_below _ _ _ h hlt, if_neg (by omega)]
    · rw [if_pos (by omega)]
      simp only [Memory.writeList]
      rw [if_pos (show addr < memSize by omega)]
      by_cases heq : addr = x
      · subst heq
        rw [Memory.read_writeList_below vs _ _ (Memory.wf_write h v hx) (by omega), Memory.read_write h]
        simp
      · rw [Memory.read_writeList vs (addr + 1) x (Memory.wf_write h v (by omega)) hx, if_pos (by omega), Memory.read_write h,
          if_neg heq]
        rw [show x - addr = (x - (addr + 1)) + 1 by omega]
        simp

/-! ### The same laws on the state -/

theorem State.setByte_readByte {s : State} (h : Memory.wf s.mem = true) (addr : Nat) (v : Byte) (x : Nat) :
    (s.setByte addr v).readByte x = if addr = x then v else s.readByte x :=
  Memory.read_write h addr v x

theorem State.setByte_readByte_other (s : State) {addr : Nat} (v : Byte) {x : Nat} (h : x ≠ addr) :
    (s.setByte addr v).readByte x = s.readByte x :=
  Memory.read_write_other s.mem addr v x h

/-- Every address an 8-bit register forms names a cell. -/
theorem byte_lt_memSize (x : Byte) : x.toNat < memSize := x.isLt

@[simp] theorem State.memRead_byte (s : State) (x : Byte) : s.memRead x.toNat = .ok (s.readByte x.toNat) := by
  simp [State.memRead, byte_lt_memSize x]

@[simp] theorem State.memWrite_byte (s : State) (x v : Byte) : s.memWrite x.toNat v = .ok (s.setByte x.toNat v) := by
  simp [State.memWrite, byte_lt_memSize x]

end Sys2Proof.Machine
end

