-- ==== Sys2Proof/Laws/Exec.lean ====
section
/-! SUPPORT. One spec lemma for each shared operation of an instruction, and for each meaning the state it answers where its
operand checks pass; provers cite these and never unfold the operations. -/

namespace Sys2Proof.Machine

/-! ### Operand checks -/

theorem regOperand_valid {r : Byte} (h : r.toNat < 8) : regOperand r = .ok ⟨r.toNat, h⟩ := by simp [regOperand, h]

theorem regOperand_invalid {r : Byte} (h : 8 ≤ r.toNat) : regOperand r = .error (.invalidRegister r) := by
  simp [regOperand, Nat.not_lt.mpr h]

/-- Everything the register operand check can do. -/
theorem regOperand_cases (r : Byte) : (∃ h : r.toNat < 8, regOperand r = .ok ⟨r.toNat, h⟩) ∨
    (8 ≤ r.toNat ∧ regOperand r = .error (.invalidRegister r)) := by
  by_cases h : r.toNat < 8
  · exact .inl ⟨h, regOperand_valid h⟩
  · exact .inr ⟨by omega, regOperand_invalid (by omega)⟩

theorem returnAddress_valid {pc : Nat} (h : pc ≤ 253) : returnAddress pc = .ok (BitVec.ofNat 8 (pc + 2)) := by
  simp [returnAddress, show ¬ pc + 2 > 255 by omega]

theorem returnAddress_invalid {pc : Nat} (h : 254 ≤ pc) : returnAddress pc = .error (.outOfRange (pc + 2)) := by
  simp [returnAddress, show pc + 2 > 255 by omega]

/-! ### The end of an instruction -/

@[simp] theorem runHandler_ok (op : Op) (s t : State) : runHandler op s (.ok t) = .next (t.endCycle op) := rfl

@[simp] theorem runHandler_error (op : Op) (s : State) (e : CoreError) : runHandler op s (.error e) = .next (s.raise e) := rfl

/-- The end of an instruction always answers a next state. -/
theorem runHandler_next (op : Op) (s : State) (result : Except CoreError State) : ∃ t, runHandler op s result = .next t := by
  cases result with
  | ok u => exact ⟨_, rfl⟩
  | error e => exact ⟨_, rfl⟩

/-- Everything the end of an instruction can do: the handler's state, advanced, or the fault taken in the state it started from. -/
theorem runHandler_cases {op : Op} {s t : State} {result : Except CoreError State}
    (h : runHandler op s result = .next t) :
    (∃ u, result = .ok u ∧ t = u.endCycle op) ∨ (∃ e, result = .error e ∧ t = s.raise e) := by
  cases result with
  | ok u => exact .inl ⟨u, rfl, by simpa using h.symm⟩
  | error e => exact .inr ⟨e, rfl, by simpa using h.symm⟩

/-! ### The decremented and the incremented stack pointer -/

/-- The state PUSH and CALL store in: SP one lower, modulo 256. -/
def State.pushed (s : State) : State := s.setReg spIndex (spMinusOne s)

/-- The state after SP goes up by one, modulo 256. -/
def State.popped (s : State) : State := s.setReg spIndex (spPlusOne s)

theorem State.pushed_sp_toNat (s : State) : s.pushed.sp.toNat = ((s.reg 7).toNat + 255) % 256 := by
  have : (s.reg 7).toNat < 256 := (s.reg 7).isLt
  rw [State.pushed, State.setReg_sp_same, BitVec.toNat_ofInt]
  simp only [spMinusOne, State.sp, spIndex]
  omega

theorem State.popped_sp_toNat (s : State) : s.popped.sp.toNat = ((s.reg 7).toNat + 1) % 256 := by
  have : (s.reg 7).toNat < 256 := (s.reg 7).isLt
  rw [State.popped, State.setReg_sp_same, BitVec.toNat_ofInt]
  simp only [spPlusOne, State.sp, spIndex]
  omega

@[simp] theorem State.pushed_cfg (s : State) : s.pushed.cfg = s.cfg := rfl
@[simp] theorem State.pushed_mem (s : State) : s.pushed.mem = s.mem := rfl
@[simp] theorem State.pushed_pc (s : State) : s.pushed.pc = s.pc := rfl
@[simp] theorem State.pushed_fl (s : State) : s.pushed.fl = s.fl := rfl
@[simp] theorem State.pushed_status (s : State) : s.pushed.status = s.status := rfl
@[simp] theorem State.pushed_ir (s : State) : s.pushed.ir = s.ir := rfl
@[simp] theorem State.pushed_a (s : State) : s.pushed.a = s.a := rfl
@[simp] theorem State.pushed_b (s : State) : s.pushed.b = s.b := rfl
@[simp] theorem State.pushed_out (s : State) : s.pushed.out = s.out := rfl
@[simp] theorem State.pushed_diag (s : State) : s.pushed.diag = s.diag := rfl
@[simp] theorem State.pushed_readByte (s : State) (x : Nat) : s.pushed.readByte x = s.readByte x := rfl
theorem State.pushed_reg_other (s : State) {j : RegIndex} (h : j ≠ 7) : s.pushed.reg j = s.reg j := State.setReg_reg_other s _ h
@[simp] theorem State.popped_cfg (s : State) : s.popped.cfg = s.cfg := rfl
@[simp] theorem State.popped_mem (s : State) : s.popped.mem = s.mem := rfl
@[simp] theorem State.popped_pc (s : State) : s.popped.pc = s.pc := rfl
@[simp] theorem State.popped_fl (s : State) : s.popped.fl = s.fl := rfl
@[simp] theorem State.popped_status (s : State) : s.popped.status = s.status := rfl
@[simp] theorem State.popped_ir (s : State) : s.popped.ir = s.ir := rfl
@[simp] theorem State.popped_a (s : State) : s.popped.a = s.a := rfl
@[simp] theorem State.popped_b (s : State) : s.popped.b = s.b := rfl
@[simp] theorem State.popped_out (s : State) : s.popped.out = s.out := rfl
@[simp] theorem State.popped_diag (s : State) : s.popped.diag = s.diag := rfl
@[simp] theorem State.popped_readByte (s : State) (x : Nat) : s.popped.readByte x = s.readByte x := rfl
theorem State.popped_reg_other (s : State) {j : RegIndex} (h : j ≠ 7) : s.popped.reg j = s.reg j := State.setReg_reg_other s _ h

/-- A pop after a push restores the stack pointer, and with it every register. -/
theorem State.popped_pushed_reg (s t : State) (h : ∀ j, t.reg j = s.pushed.reg j) (j : RegIndex) : t.popped.reg j = s.reg j := by
  by_cases hj : j = 7
  · subst hj
    have h1 := t.popped_sp_toNat
    have h2 := s.pushed_sp_toNat
    have h3 : (s.reg 7).toNat < 256 := (s.reg 7).isLt
    rw [h 7] at h1
    simp only [State.sp, spIndex] at h1 h2
    rw [h2] at h1
    exact BitVec.eq_of_toNat_eq (by omega)
  · rw [State.popped_reg_other t hj, h j, State.pushed_reg_other s hj]

/-! ### The meanings where their checks pass -/

theorem execHlt_eq (s : State) : execHlt s = .next (s.halt.advance Op.hlt.row.code) := rfl

theorem execPrn_valid {r : Byte} (h : r.toNat < 8) (s : State) :
    execPrn r s = .next ((s.emit (s.reg ⟨r.toNat, h⟩)).advance Op.prn.row.code) := by
  simp only [execPrn, regOperand_valid h]; rfl

theorem execLdi_valid {r : Byte} (h : r.toNat < 8) (imm : Byte) (s : State) :
    execLdi r imm s = .next ((s.setReg ⟨r.toNat, h⟩ imm.toNat).advance Op.ldi.row.code) := by
  simp only [execLdi, regOperand_valid h]; rfl

theorem execMul_valid {ra rb : Byte} (ha : ra.toNat < 8) (hb : rb.toNat < 8) (s : State) :
    execMul ra rb s = .next ((s.setReg ⟨ra.toNat, ha⟩ (mulExact (s.reg ⟨ra.toNat, ha⟩) (s.reg ⟨rb.toNat, hb⟩))).advance
      Op.mul.row.code) := by
  simp only [execMul, regOperand_valid ha, regOperand_valid hb]; rfl

theorem execAdd_valid {ra rb : Byte} (ha : ra.toNat < 8) (hb : rb.toNat < 8) (s : State) :
    execAdd ra rb s = .next ((s.setReg ⟨ra.toNat, ha⟩ (addExact (s.reg ⟨ra.toNat, ha⟩) (s.reg ⟨rb.toNat, hb⟩))).advance
      Op.add.row.code) := by
  simp only [execAdd, regOperand_valid ha, regOperand_valid hb]; rfl

theorem execPush_valid {r : Byte} (h : r.toNat < 8) (s : State) :
    execPush r s = .next ((s.pushed.setByte s.pushed.sp.toNat (s.pushed.reg ⟨r.toNat, h⟩)).advance Op.push.row.code) := by
  simp only [execPush, regOperand_valid h, State.memWrite_byte]; rfl

theorem execPop_valid {r : Byte} (h : r.toNat < 8) (s : State) :
    execPop r s = .next ((s.setReg ⟨r.toNat, h⟩ (s.readByte s.sp.toNat).toNat).popped.advance Op.pop.row.code) := by
  simp only [execPop, regOperand_valid h, State.memRead_byte]; rfl

theorem execCall_valid {r : Byte} (h : r.toNat < 8) {s : State} (hpc : s.pc ≤ 253) :
    execCall r s = .next ((s.pushed.setByte s.pushed.sp.toNat (BitVec.ofNat 8 (s.pc + 2))).setPc
      (s.pushed.reg ⟨r.toNat, h⟩).toNat) := by
  simp only [execCall, regOperand_valid h, returnAddress_valid hpc, State.memWrite_byte]; rfl

theorem execRet_eq (s : State) : execRet s = .next (s.setPc (s.readByte s.sp.toNat).toNat).popped := by
  simp only [execRet, State.memRead_byte]; rfl

/-! ### Where a register check fails -/

theorem execPrn_invalid {r : Byte} (h : 8 ≤ r.toNat) (s : State) : execPrn r s = .next (s.raise (.invalidRegister r)) := by
  simp only [execPrn, regOperand_invalid h]; rfl

theorem execLdi_invalid {r : Byte} (h : 8 ≤ r.toNat) (imm : Byte) (s : State) :
    execLdi r imm s = .next (s.raise (.invalidRegister r)) := by
  simp only [execLdi, regOperand_invalid h]; rfl

theorem execMul_invalidA {ra : Byte} (h : 8 ≤ ra.toNat) (rb : Byte) (s : State) :
    execMul ra rb s = .next (s.raise (.invalidRegister ra)) := by
  simp only [execMul, regOperand_invalid h]; rfl

theorem execMul_invalidB {ra rb : Byte} (ha : ra.toNat < 8) (h : 8 ≤ rb.toNat) (s : State) :
    execMul ra rb s = .next (s.raise (.invalidRegister rb)) := by
  simp only [execMul, regOperand_valid ha, regOperand_invalid h]; rfl

theorem execAdd_invalidA {ra : Byte} (h : 8 ≤ ra.toNat) (rb : Byte) (s : State) :
    execAdd ra rb s = .next (s.raise (.invalidRegister ra)) := by
  simp only [execAdd, regOperand_invalid h]; rfl

theorem execAdd_invalidB {ra rb : Byte} (ha : ra.toNat < 8) (h : 8 ≤ rb.toNat) (s : State) :
    execAdd ra rb s = .next (s.raise (.invalidRegister rb)) := by
  simp only [execAdd, regOperand_valid ha, regOperand_invalid h]; rfl

theorem execPush_invalid {r : Byte} (h : 8 ≤ r.toNat) (s : State) : execPush r s = .next (s.raise (.invalidRegister r)) := by
  simp only [execPush, regOperand_invalid h]; rfl

theorem execPop_invalid {r : Byte} (h : 8 ≤ r.toNat) (s : State) : execPop r s = .next (s.raise (.invalidRegister r)) := by
  simp only [execPop, regOperand_invalid h]; rfl

theorem execCall_invalid {r : Byte} (h : 8 ≤ r.toNat) (s : State) : execCall r s = .next (s.raise (.invalidRegister r)) := by
  simp only [execCall, regOperand_invalid h]; rfl

/-- CALL at 254 or above, after its register check. -/
theorem execCall_noReturn {r : Byte} (h : r.toNat < 8) {s : State} (hpc : 254 ≤ s.pc) :
    execCall r s = .next (s.raise (.outOfRange (s.pc + 2))) := by
  simp only [execCall, regOperand_valid h, returnAddress_invalid hpc]; rfl

/-! ### Everything an instruction can do -/

/-- What an instruction does where it raises no fault: the state its rule gives, advanced. -/
def State.after (s : State) : Instr → State → Prop
  | .hlt, t => t = s.halt.advance Op.hlt.row.code
  | .ldi r imm, t => ∃ h : r.toNat < 8, t = (s.setReg ⟨r.toNat, h⟩ imm.toNat).advance Op.ldi.row.code
  | .prn r, t => ∃ h : r.toNat < 8, t = (s.emit (s.reg ⟨r.toNat, h⟩)).advance Op.prn.row.code
  | .mul ra rb, t => ∃ (ha : ra.toNat < 8) (hb : rb.toNat < 8),
      t = (s.setReg ⟨ra.toNat, ha⟩ (mulExact (s.reg ⟨ra.toNat, ha⟩) (s.reg ⟨rb.toNat, hb⟩))).advance Op.mul.row.code
  | .add ra rb, t => ∃ (ha : ra.toNat < 8) (hb : rb.toNat < 8),
      t = (s.setReg ⟨ra.toNat, ha⟩ (addExact (s.reg ⟨ra.toNat, ha⟩) (s.reg ⟨rb.toNat, hb⟩))).advance Op.add.row.code
  | .push r, t => ∃ h : r.toNat < 8,
      t = (s.pushed.setByte s.pushed.sp.toNat (s.pushed.reg ⟨r.toNat, h⟩)).advance Op.push.row.code
  | .pop r, t => ∃ h : r.toNat < 8,
      t = (s.setReg ⟨r.toNat, h⟩ (s.readByte s.sp.toNat).toNat).popped.advance Op.pop.row.code
  | .call r, t => s.pc ≤ 253 ∧ ∃ h : r.toNat < 8,
      t = (s.pushed.setByte s.pushed.sp.toNat (BitVec.ofNat 8 (s.pc + 2))).setPc (s.pushed.reg ⟨r.toNat, h⟩).toNat
  | .ret, t => t = (s.setPc (s.readByte s.sp.toNat).toNat).popped

/-- The faults an instruction raises in its handler. -/
def State.handlerFault (s : State) (i : Instr) (e : CoreError) : Prop :=
  (∃ r ∈ i.registerOperands, 8 ≤ r.toNat ∧ e = .invalidRegister r) ∨
  ((∃ r : Byte, i = .call r ∧ r.toNat < 8) ∧ 254 ≤ s.pc ∧ e = .outOfRange (s.pc + 2))

/-- The one inversion lemma of `exec`: it answers a next state, which is the one the instruction's rule gives, or a fault of its
handler taken in the state it started from. -/
theorem exec_cases (i : Instr) (s : State) :
    (∃ t, exec i s = .next t ∧ s.after i t) ∨ (∃ e, exec i s = .next (s.raise e) ∧ s.handlerFault i e) := by
  have one : ∀ {r : Byte} {i : Instr}, r ∈ i.registerOperands → 8 ≤ r.toNat → s.handlerFault i (.invalidRegister r) :=
    fun hm h => .inl ⟨_, hm, h, rfl⟩
  cases i with
  | hlt => exact .inl ⟨_, execHlt_eq s, rfl⟩
  | ret => exact .inl ⟨_, execRet_eq s, rfl⟩
  | ldi r imm =>
    by_cases h : r.toNat < 8
    · exact .inl ⟨_, execLdi_valid h imm s, h, rfl⟩
    · exact .inr ⟨_, execLdi_invalid (Nat.not_lt.mp h) imm s, one (by simp [Instr.registerOperands]) (Nat.not_lt.mp h)⟩
  | prn r =>
    by_cases h : r.toNat < 8
    · exact .inl ⟨_, execPrn_valid h s, h, rfl⟩
    · exact .inr ⟨_, execPrn_invalid (Nat.not_lt.mp h) s, one (by simp [Instr.registerOperands]) (Nat.not_lt.mp h)⟩
  | push r =>
    by_cases h : r.toNat < 8
    · exact .inl ⟨_, execPush_valid h s, h, rfl⟩
    · exact .inr ⟨_, execPush_invalid (Nat.not_lt.mp h) s, one (by simp [Instr.registerOperands]) (Nat.not_lt.mp h)⟩
  | pop r =>
    by_cases h : r.toNat < 8
    · exact .inl ⟨_, execPop_valid h s, h, rfl⟩
    · exact .inr ⟨_, execPop_invalid (Nat.not_lt.mp h) s, one (by simp [Instr.registerOperands]) (Nat.not_lt.mp h)⟩
  | mul ra rb =>
    by_cases ha : ra.toNat < 8
    · by_cases hb : rb.toNat < 8
      · exact .inl ⟨_, execMul_valid ha hb s, ha, hb, rfl⟩
      · exact .inr ⟨_, execMul_invalidB ha (Nat.not_lt.mp hb) s, one (by simp [Instr.registerOperands]) (Nat.not_lt.mp hb)⟩
    · exact .inr ⟨_, execMul_invalidA (Nat.not_lt.mp ha) rb s, one (by simp [Instr.registerOperands]) (Nat.not_lt.mp ha)⟩
  | add ra rb =>
    by_cases ha : ra.toNat < 8
    · by_cases hb : rb.toNat < 8
      · exact .inl ⟨_, execAdd_valid ha hb s, ha, hb, rfl⟩
      · exact .inr ⟨_, execAdd_invalidB ha (Nat.not_lt.mp hb) s, one (by simp [Instr.registerOperands]) (Nat.not_lt.mp hb)⟩
    · exact .inr ⟨_, execAdd_invalidA (Nat.not_lt.mp ha) rb s, one (by simp [Instr.registerOperands]) (Nat.not_lt.mp ha)⟩
  | call r =>
    by_cases h : r.toNat < 8
    · by_cases hpc : s.pc ≤ 253
      · exact .inl ⟨_, execCall_valid h hpc, hpc, h, rfl⟩
      · exact .inr ⟨_, execCall_noReturn h (by omega), .inr ⟨⟨r, rfl, h⟩, by omega, rfl⟩⟩
    · exact .inr ⟨_, execCall_invalid (Nat.not_lt.mp h) s, one (by simp [Instr.registerOperands]) (Nat.not_lt.mp h)⟩

/-- The same, from an answer. -/
theorem exec_next_cases {i : Instr} {s t : State} (h : exec i s = .next t) :
    s.after i t ∨ ∃ e, t = s.raise e ∧ s.handlerFault i e := by
  rcases exec_cases i s with ⟨u, hu, ha⟩ | ⟨e, he, hf⟩
  · rw [hu] at h
    obtain rfl : u = t := by simpa using h
    exact .inl ha
  · rw [he] at h
    exact .inr ⟨e, by simpa using h.symm, hf⟩

/-- Every instruction answers a next state, in every state. -/
theorem exec_next (i : Instr) (s : State) : ∃ t, exec i s = .next t := by
  rcases exec_cases i s with ⟨t, h, _⟩ | ⟨e, h, _⟩
  · exact ⟨t, h⟩
  · exact ⟨_, h⟩

/-! ### What every completed instruction has in common -/

/-- No instruction changes the configuration, the flags register, the log or the latches. -/
theorem after_kept {s t : State} {i : Instr} (h : s.after i t) :
    t.cfg = s.cfg ∧ t.fl = s.fl ∧ t.diag = s.diag ∧ t.ir = s.ir ∧ t.a = s.a ∧ t.b = s.b := by
  cases i <;> simp only [State.after] at h <;>
    (first | subst h | (obtain ⟨_, rfl⟩ := h) | (obtain ⟨_, _, rfl⟩ := h)) <;> simp

/-- Only HLT changes the status. -/
theorem after_status {s t : State} {i : Instr} (h : s.after i t) : t.status = if i = .hlt then .halted else s.status := by
  cases i <;> simp only [State.after] at h <;>
    (first | subst h | (obtain ⟨_, rfl⟩ := h) | (obtain ⟨_, _, rfl⟩ := h)) <;> simp

/-- Where a completed instruction can leave pc: at a byte, or at most four past itself. -/
theorem after_pc {s t : State} {i : Instr} (h : s.after i t) : t.pc ≤ 255 ∨ t.pc ≤ s.pc + 4 := by
  have byte : ∀ x : Byte, x.toNat ≤ 255 := fun x => Nat.le_of_lt_succ x.isLt
  cases i <;> simp only [State.after] at h <;>
    (first | subst h | (obtain ⟨_, rfl⟩ := h) | (obtain ⟨_, _, rfl⟩ := h)) <;>
    first
      | exact .inr (Nat.add_le_add_left (advanceLength_le _) _)
      | exact .inl (byte _)

/-- A completed instruction keeps memory canonical. -/
theorem after_wf {s t : State} {i : Instr} (h : s.after i t) (hm : Memory.wf s.mem = true) : Memory.wf t.mem = true := by
  cases i <;> simp only [State.after] at h <;>
    (first | subst h | (obtain ⟨_, rfl⟩ := h) | (obtain ⟨_, _, rfl⟩ := h)) <;> simp [hm] <;>
    exact Memory.wf_write hm _ (byte_lt_memSize _)

end Sys2Proof.Machine
end

