-- ==== Sys2Proof/Laws/PerInstr.lean ====
section
/-! SUPPORT. The family of statements made per instruction: the shape of an encoding (spec/30_encoding.md R39, R40, R41). -/

namespace Sys2Proof.Laws.Encoding

/-- The encoding begins with the opcode of the instruction's row, and its length is the operand count of bits 7:6 and one more. -/
def Statement (i : Instr) : Prop :=
  (encode i).head? = some i.op.row.code ∧ (encode i).length = advanceLength i.op.row.code

theorem hlt : Statement .hlt := ⟨rfl, rfl⟩
theorem ldi (r imm : Byte) : Statement (.ldi r imm) := ⟨rfl, (advanceLength_code .ldi).symm⟩
theorem prn (r : Byte) : Statement (.prn r) := ⟨rfl, (advanceLength_code .prn).symm⟩
theorem mul (ra rb : Byte) : Statement (.mul ra rb) := ⟨rfl, (advanceLength_code .mul).symm⟩
theorem add (ra rb : Byte) : Statement (.add ra rb) := ⟨rfl, (advanceLength_code .add).symm⟩
theorem push (r : Byte) : Statement (.push r) := ⟨rfl, (advanceLength_code .push).symm⟩
theorem pop (r : Byte) : Statement (.pop r) := ⟨rfl, (advanceLength_code .pop).symm⟩
theorem call (r : Byte) : Statement (.call r) := ⟨rfl, (advanceLength_code .call).symm⟩
theorem ret : Statement .ret := ⟨rfl, rfl⟩

end Sys2Proof.Laws.Encoding
end

