-- ==== Sys2Proof/Laws/Step.lean ====
section
/-! SUPPORT. Everything the parts of a step can do, said once: the fetch, the end of a step, the step of each status. -/

namespace Sys2Proof.Machine

theorem step_running {s : State} (h : s.status = .running) : step s = cycle s := by simp [step, h]

theorem step_halted {s : State} (h : s.status = .halted) : step s = .fault .halted := by simp [step, h]

theorem step_faulted {s : State} {e : CoreError} (h : s.status = .faulted e) : step s = .fault (.faulted e) := by simp [step, h]

/-- Only a running state has a next one. -/
theorem running_of_step {s t : State} (h : step s = .next t) : s.status = .running := by
  unfold step at h
  split at h
  · assumption
  · cases h
  · cases h

/-! ### The fetch -/

theorem State.latch_inside {s : State} {x : Nat} (h : x < 256) : s.latch x = some (s.readByte x) := by
  simp [State.latch, memSize, h]

theorem State.latch_beyond {s : State} {x : Nat} (h : 256 ≤ x) : s.latch x = none := by
  simp [State.latch, memSize, Nat.not_lt.mpr h]

theorem fetch_beyond {s : State} (h : 256 ≤ s.pc) : fetch s = .error (.outOfRange s.pc) := by
  have : s.memRead s.pc = .error (.outOfRange s.pc) := by simp [State.memRead, memSize, Nat.not_lt.mpr h]
  simp only [fetch, this]; rfl

theorem fetch_inside {s : State} (h : s.pc < 256) :
    fetch s = (s.latched.overrunAtFetch).bind fun _ => .ok s.latched := by
  have : s.memRead s.pc = .ok (s.readByte s.pc) := by simp [State.memRead, memSize, h]
  simp only [fetch, this]; rfl

/-- The fetch writes the latches where the policy lets it, or the address is far enough from the end of memory. -/
theorem fetch_latched {s : State} (h : s.pc < 256) (hp : s.cfg.operandOverrun = .faultIfUsed ∨ s.pc ≤ 253) :
    fetch s = .ok s.latched := by
  have hov : s.latched.overrunAtFetch = .ok () := by
    unfold State.overrunAtFetch
    rcases hp with hp | hp
    · simp [hp]
    · simp only [State.latched_cfg, State.latched_a, State.latched_b, State.latch_inside (show s.pc + 1 < 256 by omega),
        State.latch_inside (show s.pc + 2 < 256 by omega)]
      split <;> simp
  rw [fetch_inside h, hov]; rfl

/-- Under `FaultAlways` the fetch at 254 or 255 faults, at the first absent operand's address, 256. -/
theorem fetch_overrun {s : State} (hp : s.cfg.operandOverrun = .faultAlways) (h : s.pc = 254 ∨ s.pc = 255) :
    fetch s = .error (.outOfRange 256) := by
  have hov : s.latched.overrunAtFetch = .error (.outOfRange 256) := by
    unfold State.overrunAtFetch
    rcases h with h | h
    · simp [hp, h, State.latch, memSize]
    · simp [hp, h, State.latch, memSize]
  rw [fetch_inside (by omega), hov]; rfl

/-- Everything the fetch can do. -/
theorem fetch_cases (s : State) :
    (256 ≤ s.pc ∧ fetch s = .error (.outOfRange s.pc)) ∨
    (s.cfg.operandOverrun = .faultAlways ∧ (s.pc = 254 ∨ s.pc = 255) ∧ fetch s = .error (.outOfRange 256)) ∨
    (s.pc < 256 ∧ (s.cfg.operandOverrun = .faultIfUsed ∨ s.pc ≤ 253) ∧ fetch s = .ok s.latched) := by
  by_cases h : 256 ≤ s.pc
  · exact .inl ⟨h, fetch_beyond h⟩
  · have hlt : s.pc < 256 := by omega
    cases hp : s.cfg.operandOverrun with
    | faultIfUsed => exact .inr (.inr ⟨hlt, .inl rfl, fetch_latched hlt (.inl hp)⟩)
    | faultAlways =>
      by_cases h3 : s.pc ≤ 253
      · exact .inr (.inr ⟨hlt, .inr h3, fetch_latched hlt (.inr h3)⟩)
      · exact .inr (.inl ⟨rfl, by omega, fetch_overrun hp (by omega)⟩)

/-! ### The end of a step -/

theorem settle_faulted {s t : State} {e : CoreError} (h : t.status = .faulted e) : settle s (.next t) = .next (s.raise e) := by
  simp [settle, h]

theorem settle_completed {s t : State} (h : ∀ e, t.status ≠ .faulted e) : settle s (.next t) = .next t := by
  simp only [settle]
  split
  · next e he => exact absurd he (h e)
  · rfl
  · rfl

/-- A fault raised in any state of the step is the fault of the state before the step. -/
@[simp] theorem settle_raise (s u : State) (e : CoreError) : settle s (.next (u.raise e)) = .next (s.raise e) :=
  settle_faulted rfl

/-- Everything the end of a step can do. -/
theorem settle_cases {s t : State} {o : Host.Outcome State Fault Refusal} (h : settle s o = .next t) :
    (o = .next t ∧ ∀ e, t.status ≠ .faulted e) ∨ (∃ u e, o = .next u ∧ u.status = .faulted e ∧ t = s.raise e) := by
  cases o with
  | fault r => cases h
  | refused r => cases h
  | next u =>
    by_cases hu : ∃ e, u.status = .faulted e
    · obtain ⟨e, he⟩ := hu
      rw [settle_faulted he] at h
      exact .inr ⟨u, e, rfl, he, by simpa using h.symm⟩
    · have hu' : ∀ e, u.status ≠ .faulted e := fun e he => hu ⟨e, he⟩
      rw [settle_completed hu'] at h
      obtain rfl : u = t := by simpa using h
      exact .inl ⟨rfl, hu'⟩

/-! ### Decode and execute, in a state whose latches the fetch has written -/

theorem decodeAndExec_instr {s : State} {i : Instr} (h : decode s.ir s.a s.b = .ok i) : decodeAndExec s = exec i s := by
  simp [decodeAndExec, h]

theorem decodeAndExec_unknown {s : State} (h : lookup s.ir = none) : decodeAndExec s = unknownOpcode s := by
  simp [decodeAndExec, decode_unknown h]

theorem decodeAndExec_absentA {s : State} (h : decode s.ir s.a s.b = .error .operandAAbsent) :
    decodeAndExec s = .next (s.raise (.outOfRange (s.pc + 1))) := by
  simp [decodeAndExec, h]

theorem decodeAndExec_absentB {s : State} (h : decode s.ir s.a s.b = .error .operandBAbsent) :
    decodeAndExec s = .next (s.raise (.outOfRange (s.pc + 2))) := by
  simp [decodeAndExec, h]

/-- The step of a running core whose fetch succeeds. -/
theorem step_fetched {s : State} (hr : s.status = .running) (h : s.pc < 256)
    (hp : s.cfg.operandOverrun = .faultIfUsed ∨ s.pc ≤ 253) : step s = settle s (decodeAndExec s.latched) := by
  rw [step_running hr, cycle, fetch_latched h hp]

/-- The step of a running core whose fetch faults. -/
theorem step_fetch_error {s : State} {e : CoreError} (hr : s.status = .running) (h : fetch s = .error e) :
    step s = .next (s.raise e) := by
  rw [step_running hr, cycle, h]

/-- The state an unknown opcode leaves under `Ignore`: a log entry and the generic advance. -/
def State.passedOver (s : State) : State := s.latched.logUnknown.advance (s.readByte s.pc)

/-- The one inversion lemma of `step`: a fault of the fetch, the decode or the handler leaves the state before the step with only its
status changed; otherwise the decoded instruction has run, or an unknown opcode has been passed over. -/
theorem step_cases {s t : State} (h : step s = .next t) : s.status = .running ∧
    ((∃ e, t = s.raise e) ∨
     (s.pc < 256 ∧ (s.cfg.operandOverrun = .faultIfUsed ∨ s.pc ≤ 253) ∧
       ((∃ i, decode (s.readByte s.pc) (s.latch (s.pc + 1)) (s.latch (s.pc + 2)) = .ok i ∧ exec i s.latched = .next t ∧
          s.latched.after i t) ∨
        (lookup (s.readByte s.pc) = none ∧ s.cfg.unknownOpcode = .ignore ∧ t = s.passedOver)))) := by
  have hr := running_of_step h
  refine ⟨hr, ?_⟩
  rcases fetch_cases s with ⟨_, hf⟩ | ⟨_, _, hf⟩ | ⟨hpc, hp, _⟩
  · rw [step_fetch_error hr hf] at h; exact .inl ⟨_, by simpa using h.symm⟩
  · rw [step_fetch_error hr hf] at h; exact .inl ⟨_, by simpa using h.symm⟩
  · rw [step_fetched hr hpc hp] at h
    rcases settle_cases h with ⟨ho, hn⟩ | ⟨u, e, _, _, ht⟩
    · refine .inr ⟨hpc, hp, ?_⟩
      cases hd : decode s.latched.ir s.latched.a s.latched.b with
      | ok i =>
        rw [decodeAndExec_instr hd] at ho
        refine .inl ⟨i, hd, ho, ?_⟩
        rcases exec_next_cases ho with ha | ⟨e, rfl, _⟩
        · exact ha
        · exact absurd rfl (hn e)
      | error e =>
        cases hl : lookup s.latched.ir with
        | none =>
          rw [decodeAndExec_unknown hl] at ho
          unfold unknownOpcode at ho
          split at ho
          · next hc => exact .inr ⟨hl, hc, by simpa [State.passedOver] using ho.symm⟩
          · obtain rfl := by simpa using ho.symm
            exact absurd rfl (hn _)
        | some op =>
          rw [decode_known hl] at hd
          rcases Op.withOperands_error hd with ⟨rfl, _⟩ | ⟨rfl, _⟩
          · rw [decodeAndExec_absentA (by rw [decode_known hl, hd])] at ho
            obtain rfl := by simpa using ho.symm
            exact absurd rfl (hn _)
          · rw [decodeAndExec_absentB (by rw [decode_known hl, hd])] at ho
            obtain rfl := by simpa using ho.symm
            exact absurd rfl (hn _)
    · exact .inl ⟨e, ht⟩

/-! ### The placed word -/

@[simp] theorem State.placeAtPc_cfg (s : State) (bytes : List Byte) : (s.placeAtPc bytes).cfg = s.cfg := rfl
@[simp] theorem State.placeAtPc_regs (s : State) (bytes : List Byte) : (s.placeAtPc bytes).regs = s.regs := rfl
@[simp] theorem State.placeAtPc_pc (s : State) (bytes : List Byte) : (s.placeAtPc bytes).pc = s.pc := rfl
@[simp] theorem State.placeAtPc_status (s : State) (bytes : List Byte) : (s.placeAtPc bytes).status = s.status := rfl
@[simp] theorem State.placeAtPc_mem (s : State) (bytes : List Byte) :
    (s.placeAtPc bytes).mem = Memory.writeList s.mem s.pc bytes := rfl

end Sys2Proof.Machine
end

