-- ==== Sys2Proof/Tests/Slice0.lean ====
section
/-! SUPPORT. The model's own tests: words written out from the opcode map, the vectors of spec/95_test_vectors.md (their ids in the
comments; the expected values are the spec's), ill-formed terms, the host's words, and a witness for each statement that has
hypotheses. Each test runs at most two steps. -/

namespace Sys2Proof.Tests

open Sys2Proof.Machine

/-! ### Helpers -/

/-- The next state an outcome holds. -/
def nextOf : Host.Outcome State Fault Refusal → Option State
  | .next t => some t
  | .fault _ => none
  | .refused _ => none

/-- A core about to run `bytes` at `pc`, with some registers set; the rest as after reset, in configuration `cfg`. -/
def coreAt (cfg : Config) (pc : Nat) (bytes : List Byte) (regs : List (RegIndex × Int)) : State :=
  regs.foldl (fun s r => s.setReg r.1 r.2) (({ State.construct cfg with pc := pc }).placeAtPc bytes)

/-- The same with one more byte in memory. -/
def withByte (s : State) (addr : Nat) (v : Byte) : State := s.setByte addr v

def ignoreIfUsed : Config := Config.default
def ignoreAlways : Config := ⟨.ignore, .faultAlways⟩
def faultIfUsed : Config := ⟨.fault, .faultIfUsed⟩
def faultAlways : Config := ⟨.fault, .faultAlways⟩

/-- What one step from a state leaves, seen through `f`. -/
def after {α : Type} (s : State) (f : State → α) : Option α := (nextOf (step s)).map f

/-! ### Decoding: words written out bit by bit from spec/30_encoding.md R43 -/

theorem test_decode_hlt : decodeBytes [0b00000001] = .ok .hlt := by decide
theorem test_decode_ldi : decodeBytes [0b10000010, 0b00000101, 0b11111111] = .ok (.ldi 5 255) := by decide
theorem test_decode_prn : decodeBytes [0b01000111, 0b00000111] = .ok (.prn 7) := by decide
theorem test_decode_mul : decodeBytes [0b10100010, 0b00000001, 0b00000010] = .ok (.mul 1 2) := by decide
theorem test_decode_add : decodeBytes [0b10100000, 0b00000011, 0b00000100] = .ok (.add 3 4) := by decide
theorem test_decode_push : decodeBytes [0b01000101, 0b00000000] = .ok (.push 0) := by decide
theorem test_decode_pop : decodeBytes [0b01000110, 0b00000110] = .ok (.pop 6) := by decide
theorem test_decode_call : decodeBytes [0b01010000, 0b00000001] = .ok (.call 1) := by decide
theorem test_decode_ret : decodeBytes [0b00010001] = .ok .ret := by decide
theorem test_decode_refuses_unknown : decodeBytes [84, 0, 0] = .error (.unknownOpcode 84) := by decide
theorem test_decode_refuses_absent_operands :
    decodeBytes [130] = .error .operandAAbsent ∧ decodeBytes [130, 0] = .error .operandBAbsent ∧
    decodeBytes [] = .error .opcodeAbsent := by decide
theorem test_decode_tableWord :
    decodeTableWord 8 0x82 = some (.ldi 0 0) ∧ decodeTableWord 24 0x0903A2 = some (.mul 3 9) ∧
    decodeTableWord 8 0xFFFF01 = some .hlt ∧ decodeTableWord 8 0 = none := by decide

/-! ### Well-formedness refuses each bad register operand -/

theorem test_illFormed_refused :
    (Instr.ldi 8 0).wellFormed = false ∧ (Instr.prn 8).wellFormed = false ∧ (Instr.mul 8 0).wellFormed = false ∧
    (Instr.mul 0 9).wellFormed = false ∧ (Instr.add 255 0).wellFormed = false ∧ (Instr.add 0 8).wellFormed = false ∧
    (Instr.push 8).wellFormed = false ∧ (Instr.pop 8).wellFormed = false ∧ (Instr.call 128).wellFormed = false := by decide
theorem test_wellFormed_accepts : (Instr.ldi 7 255).wellFormed = true ∧ Instr.hlt.wellFormed = true := by decide

/-! ### The host's words: each row of the table is the first instruction after reset -/

theorem test_fetchWord_running_rows :
    [(0x82 : Nat), 0x47, 0xA2, 0xA0, 0x45, 0x46, 0x50, 0x11].map
      (fun w => after (State.reset.withFetchWord 8 w) fun t => (t.ir.toNat, t.pc, t.status)) =
    [some (0x82, 3, .running), some (0x47, 2, .running), some (0xA2, 3, .running), some (0xA0, 3, .running),
     some (0x45, 2, .running), some (0x46, 2, .running), some (0x50, 0, .running), some (0x11, 0, .running)] := by decide
theorem test_fetchWord_hlt : after (State.reset.withFetchWord 8 1) (·.status) = some .halted := by decide

/-! ### One step of each instruction (vectors of spec/95_test_vectors.md) -/

/-- H1, H2. -/
theorem test_hlt :
    after (coreAt ignoreIfUsed 5 [1] []) (fun t => (t.status, t.pc)) = some (.halted, 6) ∧
    after (coreAt ignoreIfUsed 255 [1] []) (fun t => (t.status, t.pc)) = some (.halted, 256) := by decide
/-- H3. -/
theorem test_hlt_faultAlways :
    after (coreAt ignoreAlways 255 [1] []) (fun t => (t.status, t.pc)) = some (.faulted (.outOfRange 256), 255) := by decide
/-- N1, N3. -/
theorem test_prn :
    after (coreAt ignoreIfUsed 3 [71, 0] [(0, 8)]) (fun t => (t.out, t.pc)) = some ([8], 5) ∧
    after (coreAt ignoreIfUsed 0 [71, 7] []) (·.out) = some [244] := by decide
/-- N4, N5. -/
theorem test_prn_faults :
    after (coreAt ignoreIfUsed 0 [71, 8] []) (fun t => (t.status, t.out, t.ir)) = some (.faulted (.invalidRegister 8), [], 0) ∧
    after (coreAt ignoreIfUsed 255 [71] []) (·.status) = some (.faulted (.outOfRange 256)) := by decide
/-- L1, L3. -/
theorem test_ldi :
    after (coreAt ignoreIfUsed 0 [130, 0, 8] []) (fun t => (t.reg 0, t.pc)) = some (8, 3) ∧
    after (coreAt ignoreIfUsed 0 [130, 7, 0] []) (·.sp) = some 0 := by decide
/-- L5, L6. -/
theorem test_ldi_faults :
    after (coreAt ignoreIfUsed 0 [130, 9, 1] []) (·.status) = some (.faulted (.invalidRegister 9)) ∧
    after (coreAt ignoreIfUsed 254 [130, 0] []) (·.status) = some (.faulted (.outOfRange 256)) := by decide
/-- M3, M4. -/
theorem test_mul :
    after (coreAt ignoreIfUsed 0 [162, 0, 1] [(0, 255), (1, 255)]) (·.reg 0) = some 1 ∧
    after (coreAt ignoreIfUsed 0 [162, 0, 0] [(0, 15)]) (·.reg 0) = some 225 := by decide
/-- M8. -/
theorem test_mul_fault :
    after (coreAt ignoreIfUsed 0 [162, 1, 10] []) (·.status) = some (.faulted (.invalidRegister 10)) := by decide
/-- A1, A8. -/
theorem test_add :
    after (coreAt ignoreIfUsed 0 [160, 0, 1] [(0, 200), (1, 100)]) (fun t => (t.reg 0, t.reg 1)) = some (44, 100) ∧
    after (coreAt ignoreIfUsed 0 [160, 7, 1] [(1, 12)]) (·.sp) = some 0 := by decide
/-- A7. -/
theorem test_add_fault :
    after (coreAt ignoreIfUsed 0 [160, 8, 9] []) (·.status) = some (.faulted (.invalidRegister 8)) := by decide
/-- S2, S3. -/
theorem test_push :
    after (coreAt ignoreIfUsed 0 [69, 1] [(7, 0), (1, 5)]) (fun t => (t.sp, t.readByte 255)) = some (255, 5) ∧
    after (coreAt ignoreIfUsed 0 [69, 7] []) (fun t => (t.sp, t.readByte 243)) = some (243, 243) := by decide
/-- S4. -/
theorem test_push_fault :
    after (coreAt ignoreIfUsed 0 [69, 8] []) (fun t => (t.status, t.sp, t.readByte 243)) =
      some (.faulted (.invalidRegister 8), 244, 0) := by decide
/-- O2, O3. -/
theorem test_pop :
    after (withByte (coreAt ignoreIfUsed 0 [70, 0] [(7, 255)]) 255 7) (fun t => (t.reg 0, t.sp)) = some (7, 0) ∧
    after (withByte (coreAt ignoreIfUsed 0 [70, 7] [(7, 243)]) 243 42) (·.sp) = some 43 := by decide
/-- O5. -/
theorem test_pop_fault :
    after (coreAt ignoreIfUsed 0 [70, 8] []) (·.status) = some (.faulted (.invalidRegister 8)) := by decide
/-- C2, C6. -/
theorem test_call :
    after (coreAt ignoreIfUsed 0 [80, 7] []) (fun t => (t.sp, t.readByte 243, t.pc)) = some (243, 2, 243) ∧
    after (coreAt ignoreIfUsed 10 [80, 1] [(7, 0), (1, 50)]) (fun t => (t.sp, t.readByte 255, t.pc)) = some (255, 12, 50) := by
  decide
/-- C3, C5. -/
theorem test_call_faults :
    after (coreAt ignoreIfUsed 254 [80, 0] []) (fun t => (t.status, t.sp)) = some (.faulted (.outOfRange 256), 244) ∧
    after (coreAt ignoreIfUsed 254 [80, 8] []) (·.status) = some (.faulted (.invalidRegister 8)) := by decide
/-- T3, T4. -/
theorem test_ret :
    after (withByte (coreAt ignoreIfUsed 0 [17] [(7, 255)]) 255 30) (fun t => (t.pc, t.sp)) = some (30, 0) ∧
    after (withByte (coreAt ignoreAlways 255 [17] [(7, 243)]) 243 8) (·.status) = some (.faulted (.outOfRange 256)) := by decide

/-! ### The cycle and unknown opcodes -/

/-- V2, V3. -/
theorem test_unknown_ignored :
    after (coreAt ignoreIfUsed 10 [0xFF] []) (fun t => (t.pc, t.diag, t.status)) = some (14, [(10, 255)], .running) ∧
    after (coreAt ignoreIfUsed 10 [84] []) (·.pc) = some 12 := by decide
/-- V5, V9. -/
theorem test_unknown_fault :
    after (coreAt faultIfUsed 10 [0] []) (fun t => (t.status, t.pc)) = some (.faulted (.unknownOpcode 0 10), 10) ∧
    after (coreAt faultAlways 254 [0] []) (·.status) = some (.faulted (.outOfRange 256)) := by decide
/-- V6, V7. -/
theorem test_end_of_memory :
    after (coreAt ignoreIfUsed 256 [] []) (·.status) = some (.faulted (.outOfRange 256)) ∧
    after (coreAt ignoreIfUsed 255 [0xC0] []) (·.pc) = some 259 := by decide
/-- H4. -/
theorem test_final_has_no_step : nextOf (step State.reset.halt) = none ∧ nextOf (step (State.reset.raise (.outOfRange 256))) = none := by
  decide

/-! ### Memory, the load port and the text forms -/

theorem test_memory_canonical :
    Memory.write [(3, 7)] 3 0 = [] ∧ Memory.write [(3, 7)] 1 5 = [(1, 5), (3, 7)] ∧ Memory.wf [(1, 5), (3, 7)] = true ∧
    Memory.wf [(3, 7), (1, 5)] = false ∧ Memory.wf [(1, 0)] = false ∧ Memory.wf [(256, 1)] = false := by decide
/-- Rule R38 with start 255: two bytes do not fit, one does. -/
theorem test_load_boundary :
    (State.reset.load [1, 2] 255).status = .faulted (.programTooLarge 2) ∧ (State.reset.load [1, 2] 255).mem = [] ∧
    (State.reset.load [1] 255).mem = [(255, 1)] := by decide
/-- The line `LDI R0, 8` of R48, and the comment and empty lines. -/
theorem test_mnemonic_lines :
    mnemonicLine ['L', 'D', 'I', ' ', 'R', '0', ',', ' ', '8'] = some [130, 0, 8] ∧
    mnemonicLine ['#', ' ', 'x'] = some [] ∧ mnemonicLine [] = some [] ∧
    mnemonicLine ['P', 'R', 'N', ' ', 'R', '9'] = some [71, 9] ∧ mnemonicLine ['J', 'M', 'P'] = none := by decide
/-- The line `10000010 # LDI` of R49, and a line that does not begin with a digit. -/
theorem test_binary_lines :
    binaryLine ['1', '0', '0', '0', '0', '0', '1', '0', ' ', '#', ' ', 'L', 'D', 'I'] = some [130] ∧
    binaryLine ['#', '1'] = some [] ∧ binaryLine ['1', '0'] = none := by decide
theorem test_program_lines :
    programBytes mnemonicLine [['#'], ['P', 'R', 'N', ' ', 'R', '0'], ['H', 'L', 'T']] = some [71, 0, 1] := by decide
/-- N2: 255 is printed as 255. -/
theorem test_hostLine : hostLine 255 = ['2', '5', '5', '\n'] ∧ hostLine 0 = ['0', '\n'] := by decide

/-! ### Witnesses: a state and operands that meet all the hypotheses of each statement that has some -/

theorem test_witness_ResetHoldsTheTabledValues : (0 : RegIndex) ≠ 7 ∧ (6 : RegIndex) ≠ 7 := by decide
/-- A state at the edge of the invariant (pc 259, a log entry), and one with a step. -/
theorem test_witness_StepKeepsTheMachineInvariant :
    ({ State.reset with pc := 259, diag := [(255, 0)] } : State).Inv ∧
    (nextOf (step { State.reset with pc := 259, diag := [(255, 0)] })).isSome = true :=
  ⟨⟨rfl, by decide, rfl, (fun e h => by cases h), by decide⟩, by decide⟩
theorem test_witness_EveryProgramStaysInsideTheInvariant :
    ∃ t, Reaches (State.boot faultAlways [1]) t ∧ t.status = .halted := ⟨_, .tail (.refl _) rfl, rfl⟩
theorem test_witness_LoadPortWritesTheProgramOrReportsIt :
    Memory.wf State.reset.mem = true ∧ 254 + ([1, 2] : List Byte).length ≤ 256 ∧ 1 < ([1, 2] : List Byte).length ∧
    256 < 255 + ([1, 2] : List Byte).length ∧ (253 < 256 ∧ 253 < 254) := by decide
theorem test_witness_TopTwoOpcodeBitsSetTheAdvance :
    (nextOf (exec (.ldi 7 255) State.reset)).map (·.status) = some .running ∧ Instr.ldi 7 255 ≠ .ret ∧
    Instr.ldi 7 255 ≠ .call 7 := by decide
theorem test_witness_ControlFlowIsExactlyCallAndRet :
    (nextOf (exec (.call 7) { State.reset with pc := 253 })).map (·.status) = some .running ∧
    (nextOf (exec .ret State.reset)).isSome = true ∧
    (nextOf (exec .hlt State.reset)).map (·.status) = some .halted ∧ (Instr.op .hlt).row.controlFlow = false ∧
    lookup (State.reset.readByte 0) = none ∧ after State.reset (·.status) = some .running := by decide
theorem test_witness_AssemblyLineGivesTheEncodedBytes : (Instr.mul 7 7).wellFormed = true := by decide
/-- Under `FaultAlways` at 253 with a result, and with a fault. -/
theorem test_witness_StepRunsTheDecodedInstruction :
    let s := coreAt faultAlways 253 [160, 7, 7] []
    let t := coreAt ignoreIfUsed 254 [71, 8] []
    s.status = .running ∧ s.pc ≤ 253 ∧ decode s.latched.ir s.latched.a s.latched.b = .ok (.add 7 7) ∧
    (nextOf (exec (.add 7 7) s.latched)).map (·.status) = some .running ∧
    t.status = .running ∧ t.pc < 256 ∧ t.cfg.operandOverrun = .faultIfUsed ∧
    decode t.latched.ir t.latched.a t.latched.b = .ok (.prn 8) ∧
    (nextOf (exec (.prn 8) t.latched)).map (·.status) = some (.faulted (.invalidRegister 8)) := by decide
theorem test_witness_EncodedInstructionAtPcRuns :
    let s := coreAt faultAlways 253 [130, 9, 255] []
    s.status = .running ∧ s.pc + (encode (.ldi 9 255)).length ≤ 256 ∧ s.pc ≤ 253 ∧
    ∀ (k : Nat) (h : k < (encode (.ldi 9 255)).length), s.readByte (s.pc + k) = (encode (.ldi 9 255))[k] := by decide
theorem test_witness_OnlyARunningCoreHasAStep :
    State.reset.status = .running ∧ State.reset.halt.status = .halted ∧
    (State.reset.raise (.invalidRegister 8)).status = .faulted (.invalidRegister 8) := by decide
theorem test_witness_OpcodeFetchReadsTheByteAtPc :
    256 ≤ (coreAt ignoreIfUsed 256 [] []).pc ∧ (coreAt ignoreIfUsed 256 [] []).status = .running ∧
    after (coreAt ignoreIfUsed 255 [17] []) (·.status) = some .running := by decide
theorem test_witness_OperandOverrunFollowsThePolicy :
    (coreAt ignoreAlways 254 [1] []).pc = 254 ∧ (coreAt ignoreAlways 255 [1] []).cfg.operandOverrun = .faultAlways ∧
    lookup ((coreAt ignoreIfUsed 255 [71] []).readByte 255) = some .prn ∧ 1 ≤ Op.prn.row.used ∧
    lookup ((coreAt ignoreIfUsed 254 [130, 0] []).readByte 254) = some .ldi ∧ Op.ldi.row.used = 2 ∧
    lookup ((coreAt ignoreIfUsed 255 [17] []).readByte 255) = some .ret ∧ Op.ret.row.used = 0 ∧
    lookup ((coreAt ignoreIfUsed 254 [71, 0] []).readByte 254) = some .prn ∧
    after (coreAt ignoreIfUsed 254 [71, 0] []) (·.status) = some .running ∧
    after (coreAt faultAlways 253 [130, 0, 9] []) (·.status) = some .running := by decide
theorem test_witness_UnknownOpcodeFollowsThePolicy :
    let s := coreAt ignoreIfUsed 255 [0xC0] []
    let t := coreAt faultAlways 253 [0] []
    s.status = .running ∧ s.pc < 256 ∧ s.cfg.operandOverrun = .faultIfUsed ∧ lookup (s.readByte s.pc) = none ∧
    s.cfg.unknownOpcode = .ignore ∧
    t.status = .running ∧ t.pc ≤ 253 ∧ lookup (t.readByte t.pc) = none ∧ t.cfg.unknownOpcode = .fault := by decide
theorem test_witness_FaultingStepChangesOnlyTheStatus :
    (coreAt ignoreIfUsed 0 [69, 8] []).status = .running ∧
    after (coreAt ignoreIfUsed 0 [69, 8] []) (·.status) = some (.faulted (.invalidRegister 8)) := by decide
/-- Every place of the order of R82, and no fault at all. -/
theorem test_witness_StepReportsTheFirstFaultCondition :
    (coreAt faultAlways 256 [] []).firstFault = some (.outOfRange 256) ∧
    (coreAt faultAlways 255 [0] []).firstFault = some (.outOfRange 256) ∧
    (coreAt faultIfUsed 255 [0] []).firstFault = some (.unknownOpcode 0 255) ∧
    (coreAt faultIfUsed 254 [130, 9] []).firstFault = some (.outOfRange 256) ∧
    (coreAt faultIfUsed 0 [160, 8, 9] []).firstFault = some (.invalidRegister 8) ∧
    (coreAt faultIfUsed 0 [160, 7, 9] []).firstFault = some (.invalidRegister 9) ∧
    (coreAt faultIfUsed 254 [80, 7] []).firstFault = some (.outOfRange 256) ∧
    (coreAt faultIfUsed 253 [80, 7] []).firstFault = none := by decide
theorem test_witness_OnlyHltHaltsTheCore :
    (nextOf (exec .hlt State.reset)).isSome = true ∧ (nextOf (exec .ret State.reset)).isSome = true ∧
    after (coreAt ignoreIfUsed 255 [1] []) (·.status) = some .halted := by decide
theorem test_witness_NoRunRaisesUnsupportedOperation :
    (nextOf (step State.reset)).isSome = true ∧ Reaches (State.boot Config.default []) (State.boot Config.default []) :=
  ⟨by decide, .refl _⟩
theorem test_witness_ConfigurationAndFlagsNeverChange :
    after (coreAt faultAlways 0 [130, 7, 9] []) (fun t => (t.cfg, t.fl)) = some (faultAlways, 0) := by decide
theorem test_witness_OnlyPushAndCallWriteMemory :
    after (coreAt ignoreIfUsed 0 [69, 1] [(7, 0), (1, 5)]) (fun t => (t.readByte 255, t.readByte 0)) = some (5, 69) := by decide
theorem test_witness_OutputAndLogGrowOnlyByTheirOwnOpcodes :
    after (coreAt ignoreIfUsed 254 [71, 7] []) (fun t => (t.out, t.diag)) = some ([244], []) ∧
    after (coreAt ignoreIfUsed 255 [0] []) (fun t => (t.out, t.diag)) = some ([], [(255, 0)]) := by decide
theorem test_witness_RunEndsInAtMostOneState : ∃ t, EndsIn (State.boot Config.default [1]) t :=
  ⟨_, .tail (.refl _) rfl, rfl⟩
/-- A PUSH at 0 with SP = 2 overwrites its own operand; one with SP = 3 writes the byte at 2, the next opcode. -/
theorem test_witness_StoreIntoTheProgramIsSeenByTheNextFetch :
    let s := coreAt ignoreAlways 0 [69, 3] [(7, 2), (3, 17)]
    let t := coreAt ignoreIfUsed 0 [69, 3] [(7, 3), (3, 17)]
    Memory.wf s.mem = true ∧ s.status = .running ∧ s.pc ≤ 253 ∧ s.readByte s.pc = 69 ∧ (s.readByte (s.pc + 1)).toNat < 8 ∧
    after s (fun u => (u.readByte 1, u.pc)) = some (17, 2) ∧
    after t (fun u => (u.pc, ((t.reg 7).toNat + 255) % 256, after u (·.ir))) = some (2, 2, some 17) := by decide
theorem test_witness_HltHaltsAndAdvances :
    let s := coreAt ignoreIfUsed 255 [1] []
    let t := coreAt ignoreAlways 254 [1] []
    s.status = .running ∧ s.readByte s.pc = 1 ∧ s.pc < 256 ∧ s.cfg.operandOverrun = .faultIfUsed ∧
    t.status = .running ∧ t.readByte t.pc = 1 ∧ 254 ≤ t.pc ∧ t.cfg.operandOverrun = .faultAlways := by decide
theorem test_witness_PrnEmitsTheRegisterByte :
    (7 : Byte).toNat < 8 ∧ 8 ≤ (8 : Byte).toNat ∧ (coreAt ignoreIfUsed 255 [71] []).status = .running ∧
    (coreAt ignoreIfUsed 255 [71] []).pc = 255 ∧ (coreAt ignoreIfUsed 255 [71] []).readByte 255 = 71 := by decide
theorem test_witness_LdiLoadsTheImmediate :
    (7 : Byte).toNat < 8 ∧ (6 : RegIndex).val ≠ (7 : Byte).toNat ∧ 8 ≤ (8 : Byte).toNat ∧
    (coreAt ignoreIfUsed 254 [130, 8] []).status = .running ∧ (coreAt ignoreIfUsed 254 [130, 8] []).pc = 254 ∧
    (coreAt ignoreIfUsed 254 [130, 8] []).readByte 254 = 130 := by decide
theorem test_witness_MulStoresTheProductModulo256 :
    (7 : Byte).toNat < 8 ∧ (6 : RegIndex).val ≠ (7 : Byte).toNat ∧ 8 ≤ (8 : Byte).toNat ∧
    (coreAt ignoreAlways 255 [162] []).status = .running ∧ (coreAt ignoreAlways 255 [162] []).pc = 255 ∧
    (coreAt ignoreAlways 255 [162] []).readByte 255 = 162 := by decide
theorem test_witness_AddStoresTheSumModulo256 :
    (7 : Byte).toNat < 8 ∧ (0 : RegIndex).val ≠ (7 : Byte).toNat ∧ 8 ≤ (255 : Byte).toNat ∧
    (coreAt ignoreIfUsed 254 [160, 7] []).status = .running ∧ (coreAt ignoreIfUsed 254 [160, 7] []).pc = 254 ∧
    (coreAt ignoreIfUsed 254 [160, 7] []).readByte 254 = 160 := by decide
theorem test_witness_PushStoresAtTheDecrementedStackPointer :
    (7 : Byte).toNat < 8 ∧ Memory.wf (coreAt ignoreIfUsed 255 [69] []).mem = true ∧ 8 ≤ (8 : Byte).toNat ∧
    (coreAt ignoreIfUsed 255 [69] []).status = .running ∧ (coreAt ignoreIfUsed 255 [69] []).readByte 255 = 69 := by decide
theorem test_witness_PopLoadsFromTheStackPointer :
    (7 : Byte).toNat < 8 ∧ (6 : Byte) ≠ 7 ∧ 8 ≤ (8 : Byte).toNat ∧
    (coreAt ignoreIfUsed 255 [70] []).status = .running ∧ (coreAt ignoreIfUsed 255 [70] []).readByte 255 = 70 := by decide
/-- CALL runs at 253 and raises at 254. -/
theorem test_witness_CallPushesTheReturnAddressAndJumps :
    (7 : Byte).toNat < 8 ∧ Memory.wf (coreAt ignoreIfUsed 253 [80, 7, 9] []).mem = true ∧
    (coreAt ignoreIfUsed 253 [80, 7, 9] []).pc ≤ 253 ∧ 254 ≤ (coreAt ignoreIfUsed 254 [80, 7] []).pc ∧ 8 ≤ (8 : Byte).toNat ∧
    (coreAt ignoreIfUsed 255 [80] []).status = .running ∧ (coreAt ignoreIfUsed 255 [80] []).readByte 255 = 80 := by decide
theorem test_witness_RetLoadsPcFromTheStack :
    let s := coreAt ignoreIfUsed 255 [17] []
    let t := coreAt ignoreAlways 254 [17] []
    s.status = .running ∧ s.readByte s.pc = 17 ∧ s.pc < 256 ∧ s.cfg.operandOverrun = .faultIfUsed ∧
    t.status = .running ∧ t.readByte t.pc = 17 ∧ 254 ≤ t.pc ∧ t.cfg.operandOverrun = .faultAlways := by decide
theorem test_witness_InvalidRegisterIsRaisedExactlyByRegisterOperands :
    (nextOf (exec (.mul 7 8) State.reset)).map (·.status) = some (.faulted (.invalidRegister 8)) ∧
    State.reset.status = .running ∧ lookup (State.reset.readByte 0) = none ∧ (nextOf (step State.reset)).isSome = true := by decide
theorem test_witness_RegisterWriteStoresModulo256 :
    (State.reset.setReg 7 256).reg 7 = 0 ∧ (State.reset.setReg 7 (-1)).reg 7 = 255 ∧ (0 : RegIndex) ≠ 7 := by decide
theorem test_witness_MemoryAccessesKeepToTheirCell :
    Memory.wf (withByte State.reset 255 9).mem = true ∧ 255 < 256 ∧ 256 ≤ 256 ∧ (0 : Nat) ≠ 255 := by decide
theorem test_witness_RegisterOperandIsNeverMasked : (7 : Byte).toNat < 8 ∧ 8 ≤ (8 : Byte).toNat := by decide
/-- Each frame has a witness that completes and one that raises a fault. -/
theorem test_witness_LdiMulAddChangeOneRegister :
    (nextOf (exec (.ldi 7 1) State.reset)).map (·.status) = some .running ∧ (nextOf (exec (.mul 8 0) State.reset)).isSome = true ∧
    (nextOf (exec (.add 0 7) State.reset)).map (·.status) = some .running ∧ (6 : RegIndex).val ≠ (7 : Byte).toNat := by decide
theorem test_witness_HltAndPrnChangeNoRegisterAndNoMemory :
    (nextOf (exec .hlt State.reset)).map (·.status) = some .halted ∧
    (nextOf (exec (.prn 7) State.reset)).map (·.out) = some [244] ∧ (nextOf (exec (.prn 8) State.reset)).isSome = true := by decide
theorem test_witness_PushAndCallStoreOneByte :
    (nextOf (exec (.push 7) (coreAt ignoreIfUsed 0 [] [(7, 0)]))).map (·.readByte 255) = some 255 ∧
    ((coreAt ignoreIfUsed 0 [] [(7, 0)]).setReg 7 (spMinusOne (coreAt ignoreIfUsed 0 [] [(7, 0)]))).sp.toNat = 255 ∧
    (nextOf (exec (.call 0) State.reset)).map (·.readByte 243) = some 2 ∧ (nextOf (exec (.push 8) State.reset)).isSome = true := by
  decide
theorem test_witness_PopAndRetStoreNothing :
    (nextOf (exec (.pop 0) State.reset)).map (·.status) = some .running ∧
    (nextOf (exec .ret State.reset)).map (·.status) = some .running ∧ (6 : RegIndex) ≠ 7 ∧ (6 : RegIndex).val ≠ (0 : Byte).toNat := by
  decide
theorem test_witness_PushThenPopMovesTheRegister :
    (7 : Byte).toNat < 8 ∧ (6 : Byte).toNat < 7 ∧ (0 : Byte) ≠ 7 ∧ Memory.wf (coreAt ignoreIfUsed 0 [69, 7, 70, 6] []).mem = true := by
  decide
theorem test_witness_CallThenRetReturnsAfterTheCall :
    (7 : Byte).toNat < 8 ∧ (coreAt ignoreIfUsed 253 [80, 7, 9] []).pc ≤ 253 ∧
    Memory.wf (coreAt ignoreIfUsed 253 [80, 7, 9] []).mem = true := by decide

end Sys2Proof.Tests
end

section
/-!
The register accesses of R11 and R12 (spec/10_state.md): what a write stores, and what the operand check selects.
-/
namespace Sys2Proof.Machine

/-- R11: the register written holds the integer modulo 256. -/
theorem State.setReg_reg_same_toNat (s : State) (i : RegIndex) (v : Int) :
    (((s.setReg i v).reg i).toNat : Int) = v % 256 := by
  rw [State.setReg_reg_same, BitVec.toNat_ofInt]
  omega

/-- R11 at the lower end: one below 0 is 255. -/
theorem State.pushed_sp_of_zero {s : State} (h : s.reg 7 = 0) : s.pushed.reg 7 = 255 := by
  apply BitVec.eq_of_toNat_eq
  have hsp : (s.pushed.reg 7).toNat = ((s.reg 7).toNat + 255) % 256 := State.pushed_sp_toNat s
  simp [hsp, h]

/-- R11 at the upper end: one above 255 is 0. -/
theorem State.popped_sp_of_max {s : State} (h : s.reg 7 = 255) : s.popped.reg 7 = 0 := by
  apply BitVec.eq_of_toNat_eq
  have hsp : (s.popped.reg 7).toNat = ((s.reg 7).toNat + 1) % 256 := State.popped_sp_toNat s
  simp [hsp, h]

/-- Settles O40, by the rules for a register after a register write and the two wraps of the stack pointer. -/
theorem registerWriteStoresModulo256 : Obligations.RegisterWriteStoresModulo256 :=
  ⟨State.setReg_reg_same_toNat, fun s _ _ v h => State.setReg_reg_other s v h,
    fun _ h => State.pushed_sp_of_zero h, fun _ h => State.popped_sp_of_max h⟩

/-- Settles O41, by the two answers of the operand check. -/
theorem registerOperandIsNeverMasked : Obligations.RegisterOperandIsNeverMasked :=
  fun _ => ⟨fun h => regOperand_valid h, fun h => regOperand_invalid h⟩

end Sys2Proof.Machine
end

section
/-!
The opcode map and the advance it sets (spec/30_encoding.md R40, R43, R44): the table of R43 read off the rows, and where a
completed instruction leaves pc.
-/
namespace Sys2Proof

/-- R40: bits 7:6 of an opcode byte, as a number. -/
theorem operandCount_eq_div (ir : Byte) : operandCount ir = ir.toNat / 64 := by
  simp [operandCount, Nat.shiftRight_eq_div_pow]

theorem advanceLength_eq_div (ir : Byte) : advanceLength ir = ir.toNat / 64 + 1 :=
  congrArg (· + 1) (operandCount_eq_div ir)

/-- R41: an instruction has the operand bytes its handler reads. -/
theorem Instr.operandBytes_length (i : Instr) : i.operandBytes.length = i.op.row.used := by cases i <;> rfl

/-- R44: the field of the table's entry that skips the generic advance. -/
theorem Op.controlFlow_iff (op : Op) : op.row.controlFlow = true ↔ op = .call ∨ op = .ret := by
  cases op <;> simp [Op.row]

theorem Instr.controlFlow_eq_false {i : Instr} (hcall : ∀ r, i ≠ .call r) (hret : i ≠ .ret) :
    i.op.row.controlFlow = false := by
  cases i with
  | call r => exact absurd rfl (hcall r)
  | ret => exact absurd rfl hret
  | _ => rfl

theorem Op.mem_all (op : Op) : op ∈ Op.all := by cases op <;> decide

/-- A row of the opcode map as the columns of R43 order it: opcode, instruction, operand count, length, control flow. -/
def Op.tableRow (op : Op) : Byte × Op × Nat × Nat × Bool :=
  (op.row.code, op, op.row.used, op.row.used + 1, op.row.controlFlow)

/-- A byte with the columns of an instruction is in the table of R43 exactly where it is that instruction's opcode. -/
theorem mem_tableRows_iff {ir : Byte} {op : Op} :
    (ir, op, operandCount ir, op.row.used + 1, op.row.controlFlow) ∈ Op.all.map Op.tableRow ↔ ir = op.row.code := by
  rw [List.mem_map]
  constructor
  · rintro ⟨op', -, hrow⟩
    simp only [Op.tableRow, Prod.mk.injEq] at hrow
    obtain ⟨rfl, rfl, -⟩ := hrow
    rfl
  · rintro rfl
    exact ⟨op, op.mem_all, by rw [operandCount_code, Op.tableRow]⟩

/-- Settles O7: the nine literal rows are the model's rows in the order of `Op.all`. -/
theorem opcodeMapIsExactlyTheTable : Obligations.OpcodeMapIsExactlyTheTable :=
  fun _ _ => lookup_eq_some_iff.trans mem_tableRows_iff.symm

end Sys2Proof

namespace Sys2Proof.Machine

/-- An instruction that raises no fault leaves the state its rule gives. -/
theorem after_of_exec_completed {i : Instr} {s t : State} (h : exec i s = .next t) (hn : ∀ e, t.status ≠ .faulted e) :
    s.after i t := by
  rcases exec_next_cases h with ha | ⟨e, rfl, -⟩
  · exact ha
  · exact absurd rfl (hn e)

/-- R44: an instruction that is not control flow is followed by the generic advance from its own pc. -/
theorem after_pc_of_not_controlFlow {i : Instr} {s t : State} (hc : i.op.row.controlFlow = false) (h : s.after i t) :
    t.pc = s.pc + advanceLength i.op.row.code := by
  cases i with
  | hlt => subst h; rfl
  | ldi r imm | prn r | push r | pop r => obtain ⟨_, rfl⟩ := h; rfl
  | mul ra rb | add ra rb => obtain ⟨_, _, rfl⟩ := h; rfl
  | call r | ret => cases hc

/-- R44: CALL leaves pc at its register's value, as the register stands after the call. -/
theorem after_call_pc {r : Byte} {s t : State} (h : s.after (.call r) t) :
    ∃ hr : r.toNat < 8, t.pc = (t.reg ⟨r.toNat, hr⟩).toNat := by
  obtain ⟨-, hr, rfl⟩ := h
  exact ⟨hr, by simp⟩

/-- R44: RET leaves pc at the byte at SP, in every state: its handler checks nothing. -/
theorem exec_ret_pc {s t : State} (h : exec .ret s = .next t) : t.pc = (s.readByte (s.reg 7).toNat).toNat := by
  obtain rfl := Host.Outcome.next.inj ((execRet_eq s).symm.trans h)
  rfl

/-- R44: a step that passes over an unknown opcode makes the generic advance, whatever the opcode's bits. -/
theorem step_unknown_pc {s t : State} (hl : lookup (s.readByte s.pc) = none) (h : step s = .next t)
    (hn : ∀ e, t.status ≠ .faulted e) : t.pc = s.pc + advanceLength (s.readByte s.pc) := by
  rcases step_cases h with ⟨-, ⟨e, rfl⟩ | ⟨-, -, ⟨i, hd, -⟩ | ⟨-, -, rfl⟩⟩⟩
  · exact absurd rfl (hn e)
  · exact absurd (decode_op hd) (by simp [hl])
  · rfl

/-- Settles O10: the count is the opcode divided by 64, and the advance of a completed instruction is that count and one. -/
theorem topTwoOpcodeBitsSetTheAdvance : Obligations.TopTwoOpcodeBitsSetTheAdvance := by
  refine ⟨operandCount_eq_div, fun _ _ => lookup_eq_some_iff, fun i => ?_, fun i s t h hn hcall hret => ?_⟩
  · rw [i.operandBytes_length, operandCount_code]
  · rw [after_pc_of_not_controlFlow (Instr.controlFlow_eq_false hcall hret) (after_of_exec_completed h hn),
      advanceLength_eq_div, Nat.add_assoc]

/-- Settles O11: CALL's and RET's own pc, and the generic advance of every other instruction and of an unknown opcode. -/
theorem controlFlowIsExactlyCallAndRet : Obligations.ControlFlowIsExactlyCallAndRet := by
  refine ⟨Op.controlFlow_iff, fun r s t h hn => ?_, fun _ _ h => exec_ret_pc h,
    fun i s t hc h hn => after_pc_of_not_controlFlow hc (after_of_exec_completed h hn),
    fun s t _ hl h hn => step_unknown_pc hl h hn⟩
  obtain ⟨hr, hpc⟩ := after_call_pc (after_of_exec_completed h hn)
  exact ⟨hr, .inl hpc⟩

end Sys2Proof.Machine
end

section
/-!
The opcode fetch (spec/40_cycle.md R52): the fault of an address outside memory, and the byte a completed step leaves in `ir`.
-/
namespace Sys2Proof.Machine

/-- R52: a core whose pc has run off the end of memory faults at fetch, with pc as the information record. -/
theorem step_fetch_outOfRange {s : State} (hr : s.status = .running) (h : 256 ≤ s.pc) :
    step s = .next (s.raise (.outOfRange s.pc)) :=
  step_fetch_error hr (fetch_beyond h)

/-- R52: a step that raises no fault leaves `ir` at the byte fetched. A handler keeps the `ir` of the latched state, and so does
passing over an unknown opcode. -/
theorem step_completed_ir {s t : State} (h : step s = .next t) (hn : ∀ e, t.status ≠ .faulted e) :
    t.ir = s.readByte s.pc := by
  obtain ⟨-, ⟨e, rfl⟩ | ⟨-, -, ⟨i, -, -, ha⟩ | ⟨-, -, rfl⟩⟩⟩ := step_cases h
  · exact absurd rfl (hn e)
  · obtain ⟨-, -, -, hir, -, -⟩ := after_kept ha
    exact hir.trans s.latched_ir
  · rfl

/-- Settles O16, by the fetch's fault beyond memory and the `ir` of a completed step. -/
theorem opcodeFetchReadsTheByteAtPc : Obligations.OpcodeFetchReadsTheByteAtPc :=
  fun _ hr => ⟨fun hpc => step_fetch_outOfRange hr hpc, fun _ _ h hn => step_completed_ir h hn⟩

end Sys2Proof.Machine
end

section
/-!
HLT (spec/41_halt_and_output.md R61): its instruction, the step that runs it, and the overrun fault of `FaultAlways` before it.
-/
namespace Sys2Proof.Machine

/-! ### Steps of a running core -/

/-- The step of a running core whose fetch succeeds and whose bytes decode. -/
theorem step_decoded {s : State} {i : Instr} (hr : s.status = .running) (h : s.pc < 256)
    (hp : s.cfg.operandOverrun = .faultIfUsed ∨ s.pc ≤ 253)
    (hd : decode (s.readByte s.pc) (s.latch (s.pc + 1)) (s.latch (s.pc + 2)) = .ok i) :
    step s = settle s (exec i s.latched) := by
  rw [step_fetched hr h hp, decodeAndExec_instr hd]

/-- R53: under `FaultAlways` the step at 254 or 255 faults whatever the opcode, at the first absent operand's address. -/
theorem step_overrun {s : State} (hr : s.status = .running) (hp : s.cfg.operandOverrun = .faultAlways)
    (h : s.pc = 254 ∨ s.pc = 255) : step s = .next (s.raise (.outOfRange 256)) :=
  step_fetch_error hr (fetch_overrun hp h)

/-- R51: a halted core has no next state. -/
theorem step_ne_next_of_halted {s : State} (h : s.status = .halted) (t : State) : step s ≠ .next t := by
  simp [step_halted h]

/-! ### HLT -/

theorem exec_hlt (s : State) : exec .hlt s = .next (s.halt.advance Op.hlt.row.code) := execHlt_eq s

/-- R61: the generic advance after HLT is one byte. -/
theorem State.halt_advance_pc (s : State) : (s.halt.advance Op.hlt.row.code).pc = s.pc + 1 :=
  congrArg (s.pc + ·) (advanceLength_code .hlt)

/-- R61: a step on HLT runs it in the latched state. The operand latches are not looked at, so they may be absent. -/
theorem step_hlt {s : State} (hr : s.status = .running) (hc : s.readByte s.pc = Op.hlt.row.code) (h : s.pc < 256)
    (hp : s.cfg.operandOverrun = .faultIfUsed ∨ s.pc ≤ 253) :
    step s = .next (s.latched.halt.advance Op.hlt.row.code) := by
  have hd : decode (s.readByte s.pc) (s.latch (s.pc + 1)) (s.latch (s.pc + 2)) = .ok .hlt := by
    rw [hc, decode_code, Op.withOperands]
  rw [step_decoded hr h hp hd, exec_hlt, settle_completed (by simp)]

/-- Settles O29, by the state HLT answers, the step that runs it, and the fetch's overrun fault. -/
theorem hltHaltsAndAdvances : Obligations.HltHaltsAndAdvances := by
  refine ⟨fun s => ⟨_, exec_hlt s, rfl, s.halt_advance_pc⟩, rfl, fun s hr hc hpc => ⟨fun hp => ?_, fun hp h => ?_⟩⟩
  · exact ⟨_, step_hlt hr hc hpc hp, rfl, s.latched.halt_advance_pc, step_ne_next_of_halted rfl,
      fun _ => rfl, fun _ => rfl, rfl, rfl⟩
  · exact step_overrun hr hp (by omega)

end Sys2Proof.Machine
end

section
/-!
LDI, MUL and ADD (spec/42_load_and_alu.md R64, R65, R66): the overrun of an instruction that reads two operand bytes, the one register
write the three share, and each instruction's statement.
-/

namespace Sys2Proof

/-! ### An operand that the handler reads is absent -/

theorem Op.withOperands_absentA {op : Op} (hu : 1 ≤ op.row.used) (b : Option Byte) :
    op.withOperands none b = .error .operandAAbsent := by
  cases op with
  | hlt | ret => cases hu
  | _ => rfl

theorem Op.withOperands_absentB {op : Op} (hu : op.row.used = 2) (x : Byte) :
    op.withOperands (some x) none = .error .operandBAbsent := by
  cases op with
  | ldi | mul | add => rfl
  | _ => cases hu

end Sys2Proof

namespace Sys2Proof.Machine

/-! ### The overrun of a step -/

/-- R53: the policy says where the fault is raised, at fetch or where the operand is used; the state it leaves is the same. -/
theorem step_overrun_of_used {s : State} (hr : s.status = .running) (hpc : s.pc = 254 ∨ s.pc = 255)
    (hx : decodeAndExec s.latched = .next (s.latched.raise (.outOfRange 256))) :
    step s = .next (s.raise (.outOfRange 256)) := by
  cases hp : s.cfg.operandOverrun with
  | faultAlways => exact step_overrun hr hp hpc
  | faultIfUsed => rw [step_fetched hr (by omega) (.inl hp), hx, settle_raise]

theorem step_absentA {s : State} {op : Op} (hu : 1 ≤ op.row.used) (hr : s.status = .running) (hpc : s.pc = 255)
    (hc : s.readByte s.pc = op.row.code) : step s = .next (s.raise (.outOfRange 256)) := by
  have hd : decode s.latched.ir s.latched.a s.latched.b = .error .operandAAbsent := by
    rw [State.latched_ir, hc, decode_code, State.latched_a, State.latch_beyond (by omega), Op.withOperands_absentA hu]
  exact step_overrun_of_used hr (.inr hpc) (by rw [decodeAndExec_absentA hd, State.latched_pc, hpc])

theorem step_absentB {s : State} {op : Op} (hu : op.row.used = 2) (hr : s.status = .running) (hpc : s.pc = 254)
    (hc : s.readByte s.pc = op.row.code) : step s = .next (s.raise (.outOfRange 256)) := by
  have hd : decode s.latched.ir s.latched.a s.latched.b = .error .operandBAbsent := by
    rw [State.latched_ir, hc, decode_code, State.latched_a, State.latch_inside (by omega), State.latched_b,
      State.latch_beyond (by omega), Op.withOperands_absentB hu]
  exact step_overrun_of_used hr (.inl hpc) (by rw [decodeAndExec_absentB hd, State.latched_pc, hpc])

/-- The first operand that is absent lies at 256: operand b for an opcode at 254, operand a for one at 255. -/
theorem step_twoOperands_overrun (op : Op) (hu : op.row.used = 2) {s : State} (hr : s.status = .running)
    (hpc : s.pc = 254 ∨ s.pc = 255) (hc : s.readByte s.pc = op.row.code) :
    step s = .next (s.raise (.outOfRange 256)) := by
  rcases hpc with hpc | hpc
  · exact step_absentB hu hr hpc hc
  · exact step_absentA (by omega) hr hpc hc

/-! ### One register written, then the generic advance -/

/-- What the state LDI, MUL and ADD answer keeps, and its pc. -/
theorem State.setReg_advance_frame (s : State) (i : RegIndex) (v : Int) {op : Op} (hu : op.row.used = 2) :
    (∀ j : RegIndex, j.val ≠ i.val → ((s.setReg i v).advance op.row.code).reg j = s.reg j) ∧
    ((s.setReg i v).advance op.row.code).pc = s.pc + 3 ∧
    ((s.setReg i v).advance op.row.code).status = s.status ∧ ((s.setReg i v).advance op.row.code).fl = s.fl := by
  refine ⟨fun j hj => ?_, ?_, rfl, rfl⟩
  · exact State.setReg_reg_other s v (Fin.ne_of_val_ne hj)
  · rw [State.advance_pc, advanceLength_code, hu, State.setReg_pc]

/-- R11 for a natural number, the form of the exact sum and product of two bytes. -/
theorem State.setReg_reg_same_natCast (s : State) (i : RegIndex) (n : Nat) :
    ((s.setReg i n).reg i).toNat = n % 256 := by
  exact_mod_cast s.setReg_reg_same_toNat i n

theorem mulExact_eq_natCast (x y : Byte) : mulExact x y = (x.toNat * y.toNat : Nat) := (Int.natCast_mul _ _).symm

theorem addExact_eq_natCast (x y : Byte) : addExact x y = (x.toNat + y.toNat : Nat) := (Int.natCast_add _ _).symm

/-- R65: MUL's register write. -/
theorem State.setReg_mulExact_toNat (s : State) (i : RegIndex) (x y : Byte) :
    ((s.setReg i (mulExact x y)).reg i).toNat = x.toNat * y.toNat % 256 := by
  rw [mulExact_eq_natCast, State.setReg_reg_same_natCast]

/-- R66: ADD's register write. -/
theorem State.setReg_addExact_toNat (s : State) (i : RegIndex) (x y : Byte) :
    ((s.setReg i (addExact x y)).reg i).toNat = (x.toNat + y.toNat) % 256 := by
  rw [addExact_eq_natCast, State.setReg_reg_same_natCast]

/-! ### The statements -/

/-- Settles O31: a byte written to a register is stored unchanged, and the overrun is that of any two-operand instruction. -/
theorem ldiLoadsTheImmediate : Obligations.LdiLoadsTheImmediate := by
  refine ⟨fun r imm h s => ?_, fun r imm s h => execLdi_invalid h imm s, fun _ _ => rfl,
    fun _ => step_twoOperands_overrun .ldi rfl⟩
  have hv : (s.setReg ⟨r.toNat, h⟩ imm.toNat).reg ⟨r.toNat, h⟩ = imm := by
    rw [State.setReg_reg_same, ofInt_toNat]
  exact ⟨_, execLdi_valid h imm s, hv, s.setReg_advance_frame ⟨_, h⟩ _ rfl⟩

/-- Settles O32: the register write reduces the exact product; operand a is checked first. -/
theorem mulStoresTheProductModulo256 : Obligations.MulStoresTheProductModulo256 := by
  refine ⟨fun ra rb ha hb s => ?_, fun ra rb s h => execMul_invalidA h rb s, fun ra rb s ha hb => execMul_invalidB ha hb s,
    fun _ _ => rfl, fun _ => step_twoOperands_overrun .mul rfl⟩
  exact ⟨_, execMul_valid ha hb s, s.setReg_mulExact_toNat _ _ _, s.setReg_advance_frame ⟨_, ha⟩ _ rfl⟩

/-- Settles O33: the register write reduces the exact sum; operand a is checked first. -/
theorem addStoresTheSumModulo256 : Obligations.AddStoresTheSumModulo256 := by
  refine ⟨fun ra rb ha hb s => ?_, fun ra rb s h => execAdd_invalidA h rb s, fun ra rb s ha hb => execAdd_invalidB ha hb s,
    fun _ _ => rfl, fun _ => step_twoOperands_overrun .add rfl⟩
  exact ⟨_, execAdd_valid ha hb s, s.setReg_addExact_toNat _ _ _, s.setReg_advance_frame ⟨_, ha⟩ _ rfl⟩

end Sys2Proof.Machine
end

section
/-!
RET (spec/44_call_return.md R72): the state it answers, the step that runs it, and the overrun fault of `FaultAlways` before it.
-/
namespace Sys2Proof.Machine

/-- The state RET answers: pc is the byte at SP, and SP is one higher modulo 256. -/
def State.returned (s : State) : State := (s.setPc (s.readByte s.sp.toNat).toNat).popped

/-- R72: RET answers in every state, for it checks nothing, not even that the byte came from a CALL. -/
theorem exec_ret (s : State) : exec .ret s = .next s.returned := execRet_eq s

theorem State.returned_pc (s : State) : s.returned.pc = (s.readByte (s.reg 7).toNat).toNat := rfl

theorem State.returned_sp_toNat (s : State) : (s.returned.reg 7).toNat = ((s.reg 7).toNat + 1) % 256 :=
  State.popped_sp_toNat (s.setPc (s.readByte s.sp.toNat).toNat)

@[simp] theorem State.returned_readByte (s : State) (x : Nat) : s.returned.readByte x = s.readByte x := rfl
@[simp] theorem State.returned_status (s : State) : s.returned.status = s.status := rfl
@[simp] theorem State.returned_fl (s : State) : s.returned.fl = s.fl := rfl

/-- R72: a step on RET runs it in the latched state. The operand latches are not looked at, so they may be absent. -/
theorem step_ret {s : State} (hr : s.status = .running) (hc : s.readByte s.pc = Op.ret.row.code) (h : s.pc < 256)
    (hp : s.cfg.operandOverrun = .faultIfUsed ∨ s.pc ≤ 253) : step s = .next s.latched.returned := by
  have hd : decode (s.readByte s.pc) (s.latch (s.pc + 1)) (s.latch (s.pc + 2)) = .ok .ret := by
    rw [hc, decode_code, Op.withOperands]
  rw [step_decoded hr h hp hd, exec_ret, settle_completed (by simp [hr])]

/-- Settles O37, by the state RET answers, the step that runs it, and the fetch's overrun fault. The latched state has the
registers, the memory and the status of the state before the step. -/
theorem retLoadsPcFromTheStack : Obligations.RetLoadsPcFromTheStack := by
  refine ⟨fun s => ?_, rfl, fun s hr hc hpc => ⟨fun hp => ?_, fun hp h => ?_⟩⟩
  · exact ⟨_, exec_ret s, s.returned_pc, s.returned_sp_toNat, s.returned_readByte _, s.returned_status, s.returned_fl⟩
  · exact ⟨_, step_ret hr hc hpc hp, s.latched.returned_pc, s.latched.returned_sp_toNat, hr⟩
  · exact step_overrun hr hp (by omega)

end Sys2Proof.Machine
end

section
/-!
The faults of a run (spec/60_exceptions.md): which error a handler and a step can raise, that none of them is `UnsupportedOperation`
(R78), and that `InvalidRegister` names a register operand of the instruction (R76).
-/
namespace Sys2Proof.Machine

/-! ### The error of a handler and of a step -/

/-- The status an instruction leaves a running core in is a fault only where its handler has raised it. -/
theorem handlerFault_of_exec {i : Instr} {s t : State} {e : CoreError} (hr : s.status = .running)
    (h : exec i s = .next t) (he : t.status = .faulted e) : s.handlerFault i e := by
  rcases exec_next_cases h with ha | ⟨e', rfl, hf⟩
  · have hne : t.status ≠ .faulted e := by
      rw [after_status ha, hr]
      split <;> simp
    exact absurd he hne
  · obtain rfl : e' = e := Status.faulted.inj he
    exact hf

theorem unknownOpcode_fault {s t : State} {e : CoreError} (hr : s.status = .running)
    (h : unknownOpcode s = .next t) (he : t.status = .faulted e) : e = .unknownOpcode s.ir s.pc := by
  unfold unknownOpcode at h
  split at h
  · obtain rfl := Host.Outcome.next.inj h
    exact absurd he (by simp [hr])
  · obtain rfl := Host.Outcome.next.inj h
    exact (Status.faulted.inj he).symm

/-- The error of decode and execute: an absent operand's address, the unknown opcode, or what the decoded instruction's handler
raises. -/
theorem decodeAndExec_fault_cases {s t : State} {e : CoreError} (hr : s.status = .running)
    (h : decodeAndExec s = .next t) (he : t.status = .faulted e) :
    (∃ addr, e = .outOfRange addr) ∨ e = .unknownOpcode s.ir s.pc ∨
    ∃ i, decode s.ir s.a s.b = .ok i ∧ s.handlerFault i e := by
  unfold decodeAndExec at h
  split at h
  case h_1 i hd => exact .inr (.inr ⟨i, hd, handlerFault_of_exec hr h he⟩)
  case h_2 => exact .inr (.inl (unknownOpcode_fault hr h he))
  all_goals
    obtain rfl := Host.Outcome.next.inj h
    exact .inl ⟨_, (Status.faulted.inj he).symm⟩

/-- The error of a step: an address of the fetch or of an operand that is out of range, the unknown opcode at pc, or what the handler
of the decoded instruction raises. -/
theorem step_fault_cases {s t : State} {e : CoreError} (h : step s = .next t) (he : t.status = .faulted e) :
    (∃ addr, e = .outOfRange addr) ∨ e = .unknownOpcode (s.readByte s.pc) s.pc ∨
    ∃ i, decode (s.readByte s.pc) (s.latch (s.pc + 1)) (s.latch (s.pc + 2)) = .ok i ∧ s.latched.handlerFault i e := by
  have hr := running_of_step h
  have raised : ∀ {addr}, step s = .next (s.raise (.outOfRange addr)) → ∃ addr, e = .outOfRange addr := fun hs => by
    obtain rfl := Host.Outcome.next.inj (hs.symm.trans h)
    exact ⟨_, (Status.faulted.inj he).symm⟩
  rcases fetch_cases s with ⟨-, hf⟩ | ⟨-, -, hf⟩ | ⟨hpc, hp, -⟩
  · exact .inl (raised (step_fetch_error hr hf))
  · exact .inl (raised (step_fetch_error hr hf))
  · rw [step_fetched hr hpc hp] at h
    rcases settle_cases h with ⟨-, hn⟩ | ⟨u, e', ho, hu, rfl⟩
    · exact absurd he (hn e)
    · obtain rfl : e' = e := Status.faulted.inj he
      exact decodeAndExec_fault_cases (s := s.latched) hr ho hu

/-! ### UnsupportedOperation -/

theorem handlerFault_ne_unsupportedOperation {s : State} {i : Instr} {e : CoreError} (h : s.handlerFault i e) (name : String) :
    e ≠ .unsupportedOperation name := by
  rcases h with ⟨r, -, -, rfl⟩ | ⟨-, -, rfl⟩
  · nofun
  · nofun

/-- R78 for one step: of the errors a step can raise, none is `UnsupportedOperation`. -/
theorem step_ne_unsupportedOperation {s t : State} (h : step s = .next t) (name : String) :
    t.status ≠ .faulted (.unsupportedOperation name) := by
  intro he
  rcases step_fault_cases h he with ⟨addr, hx⟩ | hx | ⟨i, -, hf⟩
  · cases hx
  · cases hx
  · exact handlerFault_ne_unsupportedOperation hf name rfl

/-- The load port leaves a core running, or reports a program that does not fit (R77). -/
theorem State.boot_status (cfg : Config) (program : List Byte) :
    (State.boot cfg program).status = .running ∨
    (State.boot cfg program).status = .faulted (.programTooLarge program.length) := by
  unfold State.boot State.load
  split
  · exact .inr rfl
  · exact .inl rfl

theorem State.boot_ne_unsupportedOperation (cfg : Config) (program : List Byte) (name : String) :
    (State.boot cfg program).status ≠ .faulted (.unsupportedOperation name) := by
  rcases State.boot_status cfg program with h | h
  · simp [h]
  · simp [h]

/-- Settles O22: a reached state is the booted one or the state some step has left. -/
theorem noRunRaisesUnsupportedOperation : Obligations.NoRunRaisesUnsupportedOperation := by
  refine ⟨fun _ _ name h => step_ne_unsupportedOperation h name, fun cfg program t name hreach => ?_⟩
  cases hreach with
  | refl => exact State.boot_ne_unsupportedOperation cfg program name
  | tail _ hstep => exact step_ne_unsupportedOperation hstep name

/-! ### InvalidRegister -/

/-- A handler raises `InvalidRegister` only of one of its register operands, and only where that operand is 8 or more. -/
theorem handlerFault_invalidRegister {s : State} {i : Instr} {r : Byte} (h : s.handlerFault i (.invalidRegister r)) :
    r ∈ i.registerOperands ∧ 8 ≤ r.toNat := by
  rcases h with ⟨r', hmem, hge, hx⟩ | ⟨-, -, hx⟩
  · obtain rfl : r = r' := CoreError.invalidRegister.inj hx
    exact ⟨hmem, hge⟩
  · cases hx

/-- The instructions with a register operand (R76): LDI's immediate is none, and HLT and RET have none. -/
theorem Instr.eq_of_mem_registerOperands {i : Instr} {r : Byte} (h : r ∈ i.registerOperands) :
    i = .prn r ∨ (∃ x, i = .ldi r x) ∨ (∃ x, i = .mul r x) ∨ (∃ x, i = .mul x r) ∨ (∃ x, i = .add r x) ∨
    (∃ x, i = .add x r) ∨ i = .push r ∨ i = .pop r ∨ i = .call r := by
  cases i with
  | hlt | ret => cases h
  | ldi r' _ | prn r' | push r' | pop r' | call r' =>
    obtain rfl : r = r' := List.mem_singleton.mp h
    simp
  | mul ra rb | add ra rb =>
    obtain rfl | rfl : r = ra ∨ r = rb := List.mem_pair.mp h
    · simp
    · simp

/-- R76: an unknown opcode has no register operand, so its step raises no `InvalidRegister`. -/
theorem step_unknown_ne_invalidRegister {s t : State} (hl : lookup (s.readByte s.pc) = none) (h : step s = .next t) (r : Byte) :
    t.status ≠ .faulted (.invalidRegister r) := by
  intro he
  rcases step_fault_cases h he with ⟨addr, hx⟩ | hx | ⟨i, hd, -⟩
  · cases hx
  · cases hx
  · exact absurd (decode_op hd) (by simp [hl])

/-- Settles O38: each handler's register check, the register operands read off a fault of a handler, and the step of an unknown
opcode. -/
theorem invalidRegisterIsRaisedExactlyByRegisterOperands : Obligations.InvalidRegisterIsRaisedExactlyByRegisterOperands := by
  refine ⟨fun s r x h => ?_, fun i s t r hr h he => ?_, fun _ _ r _ hl h => step_unknown_ne_invalidRegister hl h r⟩
  · exact ⟨execPrn_invalid h s, execLdi_invalid h x s, execMul_invalidA h x s, execAdd_invalidA h x s, execPush_invalid h s,
      execPop_invalid h s, execCall_invalid h s, fun hx => ⟨execMul_invalidB hx h s, execAdd_invalidB hx h s⟩⟩
  · obtain ⟨hmem, hge⟩ := handlerFault_invalidRegister (handlerFault_of_exec hr h he)
    exact ⟨hge, Instr.eq_of_mem_registerOperands hmem⟩

end Sys2Proof.Machine
end

section
/-!
Decode and encode (spec/30_encoding.md R39, R41, R43): the latches an instruction decodes from, and the bytes it decodes from.
-/
namespace Sys2Proof

/-- R41: decoding reads an instruction's operand bytes from the latches, operand a first; a latch that it does not use is free. -/
theorem Op.withOperands_eq_ok_iff {a b : Option Byte} {i : Instr} :
    i.op.withOperands a b = .ok i ↔ i.operandBytes.map some <+: [a, b] := by
  cases i with
  | hlt | ret => simp [Instr.op, Op.withOperands, Instr.operandBytes]
  | prn x | push x | pop x | call x =>
    cases a <;> simp [Instr.op, Op.withOperands, Instr.operandBytes, bind, Except.bind, pure, Except.pure, eq_comm]
  | ldi x y | mul x y | add x y =>
    cases a <;> cases b <;>
      simp [Instr.op, Op.withOperands, Instr.operandBytes, bind, Except.bind, pure, Except.pure, eq_comm]

/-- The decoder answers an instruction exactly where `ir` is its opcode and the latches hold its operand bytes. -/
theorem decode_eq_ok_iff {ir : Byte} {a b : Option Byte} {i : Instr} :
    decode ir a b = .ok i ↔ ir = i.op.row.code ∧ i.operandBytes.map some <+: [a, b] := by
  constructor
  · intro h
    have hir := lookup_eq_some (decode_op h)
    rw [hir, decode_code] at h
    exact ⟨hir, Op.withOperands_eq_ok_iff.mp h⟩
  · rintro ⟨rfl, h⟩
    rw [decode_code, Op.withOperands_eq_ok_iff.mpr h]

/-- The two latches stand for the bytes after the opcode: at most two bytes begin the one exactly where they begin the other. -/
theorem map_some_prefix_iff {vs rest : List Byte} (h : vs.length ≤ 2) :
    vs.map some <+: [rest[0]?, rest[1]?] ↔ vs <+: rest := by
  match vs, h with
  | [], _ => simp
  | [x], _ => cases rest <;> simp [eq_comm]
  | [x, y], _ =>
    match rest with
    | [] | [_] | _ :: _ :: _ => simp

theorem Instr.operandBytes_length_le (i : Instr) : i.operandBytes.length ≤ 2 := by
  cases i <;> simp [Instr.operandBytes]

/-- Settles O9: an instruction's operand bytes begin the bytes after its opcode exactly where it is what they decode to. -/
theorem decodeReadsExactlyTheEncodedBytes : Obligations.DecodeReadsExactlyTheEncodedBytes := by
  intro bytes i
  rw [← List.prefix_iff_exists_eq_append]
  cases bytes with
  | nil => simp [decodeBytes, encode]
  | cons ir rest =>
    rw [decodeBytes, encode, List.cons_prefix_cons, decode_eq_ok_iff, map_some_prefix_iff i.operandBytes_length_le, eq_comm]

end Sys2Proof
end

section
/-!
The first fault condition (spec/60_exceptions.md R82): the instruction that an opcode's operand bytes give, what it does where
each condition is the first that is met, and the step that reports it.
-/
namespace Sys2Proof

/-- The instruction of an opcode with the operand bytes `x` and `y`, of which it takes the ones it uses. -/
def Op.instr (x y : Byte) : Op → Instr
  | .hlt  => .hlt
  | .ldi  => .ldi x y
  | .prn  => .prn x
  | .mul  => .mul x y
  | .add  => .add x y
  | .push => .push x
  | .pop  => .pop x
  | .call => .call x
  | .ret  => .ret

@[simp] theorem Op.instr_op (op : Op) (x y : Byte) : (op.instr x y).op = op := by cases op <;> rfl

/-- An opcode decodes to its instruction where the latches it uses are full. -/
theorem Op.decode_instr {op : Op} {a b : Option Byte} {x y : Byte} (ha : 1 ≤ op.row.used → a = some x)
    (hb : op.row.used = 2 → b = some y) : decode op.row.code a b = .ok (op.instr x y) := by
  rw [decode_code]
  cases op with
  | hlt | ret => rfl
  | prn | push | pop | call => rw [ha (by decide)]; rfl
  | ldi | mul | add => rw [ha (by decide), hb rfl]; rfl

end Sys2Proof

namespace Sys2Proof.Machine

/-- The register operands are the first `registerChecks` of the two operand bytes. -/
theorem Op.instr_registerOperands (op : Op) (x y : Byte) :
    (op.instr x y).registerOperands = [x, y].take (Op.registerChecks op) := by
  cases op <;> rfl

/-! ### The handler's first fault condition -/

theorem exec_instr_invalidA {op : Op} {x : Byte} (hc : 1 ≤ Op.registerChecks op) (hx : 8 ≤ x.toNat) (y : Byte) (s : State) :
    exec (op.instr x y) s = .next (s.raise (.invalidRegister x)) := by
  cases op with
  | hlt | ret => cases hc
  | ldi => exact execLdi_invalid hx y s
  | prn => exact execPrn_invalid hx s
  | mul => exact execMul_invalidA hx y s
  | add => exact execAdd_invalidA hx y s
  | push => exact execPush_invalid hx s
  | pop => exact execPop_invalid hx s
  | call => exact execCall_invalid hx s

theorem exec_instr_invalidB {op : Op} {x y : Byte} (hc : Op.registerChecks op = 2) (hx : x.toNat < 8) (hy : 8 ≤ y.toNat)
    (s : State) : exec (op.instr x y) s = .next (s.raise (.invalidRegister y)) := by
  cases op with
  | mul => exact execMul_invalidB hx hy s
  | add => exact execAdd_invalidB hx hy s
  | _ => cases hc

theorem exec_instr_noReturn {x y : Byte} {s : State} (hx : x.toNat < 8) (hpc : 254 ≤ s.pc) :
    exec (Op.call.instr x y) s = .next (s.raise (.outOfRange (s.pc + 2))) :=
  execCall_noReturn hx hpc

/-- An instruction completes where its register operands name registers and, for CALL, the return address is a byte. -/
theorem exec_instr_completes {op : Op} {x y : Byte} {s : State} (hx : 1 ≤ Op.registerChecks op → x.toNat < 8)
    (hy : Op.registerChecks op = 2 → y.toNat < 8) (hc : op = .call → s.pc ≤ 253) :
    ∃ t, exec (op.instr x y) s = .next t ∧ s.after (op.instr x y) t := by
  rcases exec_cases (op.instr x y) s with h | ⟨e, -, ⟨r, hr, hge, -⟩ | ⟨⟨r, hi, -⟩, hpc, -⟩⟩
  · exact h
  · rw [Op.instr_registerOperands] at hr
    cases op with
    | hlt | ret => cases hr
    | ldi | prn | push | pop | call =>
      obtain rfl := List.mem_singleton.mp hr
      exact absurd (hx (by decide)) (Nat.not_lt.mpr hge)
    | mul | add =>
      obtain rfl | rfl := List.mem_pair.mp hr
      · exact absurd (hx (by decide)) (Nat.not_lt.mpr hge)
      · exact absurd (hy rfl) (Nat.not_lt.mpr hge)
  · have hop : op = .call := by rw [← op.instr_op x y, hi]; rfl
    exact absurd (hc hop) (by omega)

/-! ### Steps of a running core by what stands at pc -/

/-- A completed instruction of a running core has not faulted. -/
theorem after_not_faulted {i : Instr} {s t : State} (hr : s.status = .running) (h : s.after i t) (e : CoreError) :
    t.status ≠ .faulted e := by
  rw [after_status h, hr]
  split
  · nofun
  · nofun

section
variable {s : State} (hr : s.status = .running) (hpc : s.pc < 256) (hp : s.cfg.operandOverrun = .faultIfUsed ∨ s.pc ≤ 253)
include hr hpc hp

/-- A known opcode whose operands lie in memory is run with them. -/
theorem step_instr {op : Op} (hl : lookup (s.readByte s.pc) = some op) (ha : 1 ≤ op.row.used → s.pc + 1 < 256)
    (hb : op.row.used = 2 → s.pc + 2 < 256) :
    step s = settle s (exec (op.instr (s.readByte (s.pc + 1)) (s.readByte (s.pc + 2))) s.latched) := by
  refine step_decoded hr hpc hp ?_
  rw [lookup_eq_some hl]
  exact Op.decode_instr (fun h => State.latch_inside (ha h)) (fun h => State.latch_inside (hb h))

/-- R55 under `Ignore`. -/
theorem step_unknown_ignore (hl : lookup (s.readByte s.pc) = none) (hc : s.cfg.unknownOpcode = .ignore) :
    step s = .next s.passedOver := by
  rw [step_fetched hr hpc hp, decodeAndExec_unknown hl]
  simp only [unknownOpcode, State.latched_cfg, hc]
  exact settle_completed (t := s.passedOver) (by simp [State.passedOver, hr])

/-- R55 under `Fault`. -/
theorem step_unknown_fault (hl : lookup (s.readByte s.pc) = none) (hc : s.cfg.unknownOpcode = .fault) :
    step s = .next (s.raise (.unknownOpcode (s.readByte s.pc) s.pc)) := by
  rw [step_fetched hr hpc hp, decodeAndExec_unknown hl]
  simp only [unknownOpcode, State.latched_cfg, hc]
  exact settle_raise s s.latched _

end

/-! ### The fault a step reports -/

/-- The step of `s` reports `f`: the fault `f` gives, or none where it completes. -/
def State.Reports (s : State) (f : Option CoreError) : Prop :=
  (∀ e, f = some e → step s = .next (s.raise e)) ∧ (f = none → ∃ t, step s = .next t ∧ ∀ e, t.status ≠ .faulted e)

theorem State.reports_some {s : State} {e : CoreError} (h : step s = .next (s.raise e)) : s.Reports (some e) := by
  refine ⟨fun e' he => ?_, nofun⟩
  rw [h, Option.some.inj he]

theorem State.reports_none {s t : State} (h : step s = .next t) (hn : ∀ e, t.status ≠ .faulted e) : s.Reports none :=
  ⟨nofun, fun _ => ⟨t, h, hn⟩⟩

/-- The conditions of R82 that a known opcode at `pc` with the operand bytes `x` and `y` can meet, in their order: an operand it
uses is absent, a register operand is invalid, CALL's return address is no byte. -/
def Op.fault (op : Op) (x y : Byte) (pc : Nat) : Option CoreError :=
  if 1 ≤ op.row.used ∧ 256 ≤ pc + 1 then some (.outOfRange (pc + 1))
  else if op.row.used = 2 ∧ 256 ≤ pc + 2 then some (.outOfRange (pc + 2))
  else if 1 ≤ Op.registerChecks op ∧ 8 ≤ x.toNat then some (.invalidRegister x)
  else if Op.registerChecks op = 2 ∧ 8 ≤ y.toNat then some (.invalidRegister y)
  else if op = .call ∧ 256 ≤ pc + 2 then some (.outOfRange (pc + 2))
  else none

/-! The three conditions of the fetch, by the branches of `fetch_cases`, and those of the opcode where none of them is met. -/

theorem State.firstFault_beyond {s : State} (h : 256 ≤ s.pc) : s.firstFault = some (.outOfRange s.pc) := by
  simp only [State.firstFault, if_pos h]

theorem State.firstFault_overrun {s : State} (hp : s.cfg.operandOverrun = .faultAlways) (h : s.pc = 254 ∨ s.pc = 255) :
    s.firstFault = some (.outOfRange 256) := by
  rcases h with h | h
  · simp [State.firstFault, hp, h]
  · simp [State.firstFault, hp, h]

section
variable {s : State} (hpc : s.pc < 256) (hp : s.cfg.operandOverrun = .faultIfUsed ∨ s.pc ≤ 253)

include hp in
theorem State.not_overrun {x : Nat} (hx : x ≤ s.pc + 2) : ¬(s.cfg.operandOverrun = .faultAlways ∧ 256 ≤ x) := by
  rintro ⟨ha, hge⟩
  rcases hp with hp | hp
  · rw [hp] at ha; cases ha
  · omega

include hpc hp

theorem State.firstFault_known {op : Op} (hl : lookup (s.readByte s.pc) = some op) :
    s.firstFault = Op.fault op (s.readByte (s.pc + 1)) (s.readByte (s.pc + 2)) s.pc := by
  simp only [State.firstFault, hl, if_neg (Nat.not_le.mpr hpc), if_neg (State.not_overrun hp (Nat.le_succ (s.pc + 1))),
    if_neg (State.not_overrun hp (Nat.le_refl (s.pc + 2)))]
  rfl

theorem State.firstFault_unknown (hl : lookup (s.readByte s.pc) = none) :
    s.firstFault = if s.cfg.unknownOpcode = .fault then some (.unknownOpcode (s.readByte s.pc) s.pc) else none := by
  simp only [State.firstFault, hl, if_neg (Nat.not_le.mpr hpc), if_neg (State.not_overrun hp (Nat.le_succ (s.pc + 1))),
    if_neg (State.not_overrun hp (Nat.le_refl (s.pc + 2)))]

/-- The step of a known opcode follows the order of its conditions. -/
theorem State.reports_known {op : Op} (hr : s.status = .running) (hl : lookup (s.readByte s.pc) = some op) :
    s.Reports (Op.fault op (s.readByte (s.pc + 1)) (s.readByte (s.pc + 2)) s.pc) := by
  have hcode := lookup_eq_some hl
  unfold Op.fault
  split_ifs with hA hB hx hy hcall
  · have h255 : s.pc = 255 := by omega
    exact State.reports_some (by rw [step_absentA hA.1 hr h255 hcode, h255])
  · have h254 : s.pc = 254 := by omega
    exact State.reports_some (by rw [step_absentB hB.1 hr h254 hcode, h254])
  all_goals have hstep := step_instr hr hpc hp hl (by omega) (by omega)
  · rw [exec_instr_invalidA hx.1 hx.2, settle_raise] at hstep
    exact State.reports_some hstep
  · rw [exec_instr_invalidB hy.1 (by omega) hy.2, settle_raise] at hstep
    exact State.reports_some hstep
  · obtain ⟨rfl, hret⟩ := hcall
    have hvalid : (s.readByte (s.pc + 1)).toNat < 8 := Nat.not_le.mp (not_and.mp hx (by decide))
    rw [exec_instr_noReturn hvalid (by rw [State.latched_pc]; omega), settle_raise] at hstep
    exact State.reports_some hstep
  · have hret : op = .call → s.latched.pc ≤ 253 := fun h => by
      have := not_and.mp hcall h
      rw [State.latched_pc]
      omega
    obtain ⟨t, ht, ha⟩ := exec_instr_completes (fun h => Nat.not_le.mp (not_and.mp hx h))
      (fun h => Nat.not_le.mp (not_and.mp hy h)) hret
    have hn := after_not_faulted (s := s.latched) hr ha
    rw [ht, settle_completed hn] at hstep
    exact State.reports_none hstep hn

/-- The step of an unknown opcode follows the policy. -/
theorem State.reports_unknown (hr : s.status = .running) (hl : lookup (s.readByte s.pc) = none) :
    s.Reports (if s.cfg.unknownOpcode = .fault then some (.unknownOpcode (s.readByte s.pc) s.pc) else none) := by
  cases hc : s.cfg.unknownOpcode with
  | fault => exact State.reports_some (step_unknown_fault hr hpc hp hl hc)
  | ignore => exact State.reports_none (step_unknown_ignore hr hpc hp hl hc) (by simp [State.passedOver, hr])

end

/-- R82: the step of a running core reports the first fault condition. -/
theorem State.reports_firstFault {s : State} (hr : s.status = .running) : s.Reports s.firstFault := by
  rcases fetch_cases s with ⟨h, hf⟩ | ⟨hp, h, hf⟩ | ⟨hpc, hp, -⟩
  · rw [State.firstFault_beyond h]
    exact State.reports_some (step_fetch_error hr hf)
  · rw [State.firstFault_overrun hp h]
    exact State.reports_some (step_fetch_error hr hf)
  · cases hl : lookup (s.readByte s.pc) with
    | none =>
      rw [State.firstFault_unknown hpc hp hl]
      exact State.reports_unknown hpc hp hr hl
    | some op =>
      rw [State.firstFault_known hpc hp hl]
      exact State.reports_known hpc hp hr hl

/-- Settles O20, which spells out that a running core's step reports its first fault condition. -/
theorem stepReportsTheFirstFaultCondition : Obligations.StepReportsTheFirstFaultCondition :=
  fun _ hr => State.reports_firstFault hr

/-- The fault a step leaves is the first condition its instruction meets. -/
theorem firstFault_of_step_faulted {s t : State} {e : CoreError} (h : step s = .next t) (he : t.status = .faulted e) :
    s.firstFault = some e := by
  obtain ⟨hsome, hnone⟩ := State.reports_firstFault (running_of_step h)
  cases hf : s.firstFault with
  | none =>
    obtain ⟨u, hu, hn⟩ := hnone hf
    obtain rfl := Host.Outcome.next.inj (hu.symm.trans h)
    exact absurd he (hn e)
  | some e' =>
    obtain rfl := Host.Outcome.next.inj ((hsome e' hf).symm.trans h)
    exact congrArg some (Status.faulted.inj he)

/-- Settles O19: the step of a core whose first fault condition gives `e` is that core with the fault raised. -/
theorem faultingStepChangesOnlyTheStatus : Obligations.FaultingStepChangesOnlyTheStatus := by
  intro s t e hr h he
  obtain ⟨hsome, -⟩ := State.reports_firstFault hr
  exact Host.Outcome.next.inj (h.symm.trans (hsome e (firstFault_of_step_faulted h he)))

end Sys2Proof.Machine
end

section
/-!
The machine invariant (Safety.lean): that reset and the load port establish it, that every step keeps it, and that every state a
run reaches meets it.
-/
namespace Sys2Proof.Machine

/-! ### Reset and boot -/

theorem State.construct_readByte (cfg : Config) (x : Nat) : (State.construct cfg).readByte x = 0 := rfl

theorem State.construct_reg (cfg : Config) {i : RegIndex} (h : i ≠ 7) : (State.construct cfg).reg i = 0 := by
  match i, h with
  | 0, _ | 1, _ | 2, _ | 3, _ | 4, _ | 5, _ | 6, _ => rfl
  | 7, h => exact absurd rfl h

/-- Settles O1, by the reset content of memory and of the registers; the other components are read off. -/
theorem resetHoldsTheTabledValues : Obligations.ResetHoldsTheTabledValues :=
  ⟨fun cfg => ⟨rfl, State.construct_readByte cfg, fun _ h => State.construct_reg cfg h, rfl, rfl, rfl, rfl, rfl, rfl, rfl, rfl,
    rfl⟩, rfl⟩

theorem State.construct_inv (cfg : Config) : (State.construct cfg).Inv where
  mem_wf := Memory.wf_nil
  pc_range := Nat.zero_le _
  fl_reset := rfl
  status_ok := nofun
  diag_ok := nofun

/-- Settles O2: of the invariant's clauses, the constructed core has neither a fault nor a log entry to answer for. -/
theorem resetMeetsTheMachineInvariant : Obligations.ResetMeetsTheMachineInvariant := State.construct_inv

/-- A possible fault raised keeps the invariant, whose other clauses do not look at the status. -/
theorem State.Inv.raise {s : State} (h : s.Inv) {e : CoreError} (he : CoreError.possible s.cfg e = true) : (s.raise e).Inv where
  mem_wf := h.mem_wf
  pc_range := h.pc_range
  fl_reset := h.fl_reset
  status_ok e' he' := by
    obtain rfl := Status.faulted.inj he'
    exact he
  diag_ok := h.diag_ok

theorem State.load_fits {s : State} {bytes : List Byte} {start : Nat} (h : start + bytes.length ≤ 256) :
    s.load bytes start = { s with mem := Memory.writeList s.mem start bytes } := if_neg (Nat.not_lt.mpr h)

theorem State.load_tooLarge {s : State} {bytes : List Byte} {start : Nat} (h : 256 < start + bytes.length) :
    s.load bytes start = s.raise (.programTooLarge bytes.length) := if_pos h

theorem State.boot_inv (cfg : Config) (program : List Byte) : (State.boot cfg program).Inv := by
  have hi := State.construct_inv cfg
  by_cases h : entryPoint + program.length ≤ 256
  · rw [State.boot, State.load_fits h]
    exact ⟨Memory.wf_writeList program _ hi.mem_wf, hi.pc_range, hi.fl_reset, hi.status_ok, hi.diag_ok⟩
  · rw [State.boot, State.load_tooLarge (Nat.not_le.mp h)]
    exact hi.raise (by simpa [CoreError.possible] using h)

/-! ### The fault of a step -/

/-- Every condition of R82 has an information record that the invariant allows, for a core with pc in its range. -/
theorem firstFault_possible {s : State} {e : CoreError} (hpc : s.pc ≤ 259) (h : s.firstFault = some e) :
    CoreError.possible s.cfg e = true := by
  have outOfRange : ∀ {addr}, 256 ≤ addr → addr ≤ 259 → CoreError.possible s.cfg (.outOfRange addr) = true := fun h h' => by
    simp [CoreError.possible, h, h']
  rcases fetch_cases s with ⟨hge, -⟩ | ⟨hp, hend, -⟩ | ⟨hlt, hp, -⟩
  · rw [State.firstFault_beyond hge] at h
    cases h
    exact outOfRange hge hpc
  · rw [State.firstFault_overrun hp hend] at h
    cases h
    exact outOfRange (Nat.le_refl _) (by decide)
  · cases hl : lookup (s.readByte s.pc) with
    | none =>
      rw [State.firstFault_unknown hlt hp hl] at h
      split_ifs at h with hc
      cases h
      simpa [CoreError.possible, hc, hl] using Nat.le_of_lt_succ hlt
    | some op =>
      rw [State.firstFault_known hlt hp hl, Op.fault] at h
      split_ifs at h with hA hB hx hy hcall <;> cases h
      · exact outOfRange hA.2 (by omega)
      · exact outOfRange hB.2 (by omega)
      · simpa [CoreError.possible] using hx.2
      · simpa [CoreError.possible] using hy.2
      · exact outOfRange hcall.2 (by omega)

/-! ### The step -/

/-- A completed instruction keeps the invariant: a byte, or at most four past a fetched opcode, is in the range of pc. -/
theorem after_inv {s t : State} {i : Instr} (hr : s.status = .running) (hpc : s.pc < 256) (h : s.after i t) (hi : s.Inv) :
    t.Inv := by
  obtain ⟨hcfg, hfl, hdiag, -, -, -⟩ := after_kept h
  refine ⟨after_wf h hi.mem_wf, ?_, hfl.trans hi.fl_reset, fun e he => absurd he (after_not_faulted hr h e), ?_⟩
  · rcases after_pc h with hle | hle
    · omega
    · omega
  · rw [hdiag, hcfg]
    exact hi.diag_ok

theorem State.Inv.latched {s : State} (h : s.Inv) : s.latched.Inv :=
  ⟨h.mem_wf, h.pc_range, h.fl_reset, h.status_ok, h.diag_ok⟩

theorem State.Inv.passedOver {s : State} (h : s.Inv) (hpc : s.pc < 256) (hl : lookup (s.readByte s.pc) = none)
    (hc : s.cfg.unknownOpcode = .ignore) : s.passedOver.Inv where
  mem_wf := h.mem_wf
  pc_range := by
    have hlen : s.passedOver.pc ≤ s.pc + 4 := Nat.add_le_add_left (advanceLength_le _) _
    omega
  fl_reset := h.fl_reset
  status_ok := h.status_ok
  diag_ok entry hentry := by
    rcases List.mem_append.mp hentry with hold | hnew
    · exact h.diag_ok entry hold
    · obtain rfl := List.mem_singleton.mp hnew
      change possibleLogEntry s.cfg (s.pc, s.readByte s.pc) = true
      simpa [possibleLogEntry, hl, hc] using Nat.le_of_lt_succ hpc

/-- Settles O3, by the cases of a step: the fault it reports is possible, and what completes keeps the invariant. -/
theorem stepKeepsTheMachineInvariant : Obligations.StepKeepsTheMachineInvariant := by
  intro s t hi h
  obtain ⟨hr, ⟨e, rfl⟩ | ⟨hpc, -, ⟨i, -, -, ha⟩ | ⟨hl, hc, rfl⟩⟩⟩ := step_cases h
  · exact hi.raise (firstFault_possible hi.pc_range (firstFault_of_step_faulted h rfl))
  · exact after_inv (s := s.latched) hr hpc ha hi.latched
  · exact hi.passedOver hpc hl hc

/-! ### Runs -/

/-- What every step keeps holds of every state a run reaches. -/
theorem Reaches.keeps {P : State → Prop} (hstep : ∀ s t, P s → step s = .next t → P t) {s t : State} (h : Reaches s t)
    (hs : P s) : P t := by
  induction h with
  | refl => exact hs
  | tail _ hu ih => exact hstep _ _ ih hu

/-- Settles O4, by the invariant of the booted core and of every step. -/
theorem everyProgramStaysInsideTheInvariant : Obligations.EveryProgramStaysInsideTheInvariant :=
  fun cfg program _ h => h.keeps stepKeepsTheMachineInvariant (State.boot_inv cfg program)

end Sys2Proof.Machine
end

section
/-!
The memory accesses and the load port (spec/20_memory.md R26, R27, R38).
-/
namespace Sys2Proof.Machine

theorem State.memRead_inside {s : State} {addr : Nat} (h : addr < 256) : s.memRead addr = .ok (s.readByte addr) := if_pos h

theorem State.memRead_beyond {s : State} {addr : Nat} (h : 256 ≤ addr) : s.memRead addr = .error (.outOfRange addr) :=
  if_neg (Nat.not_lt.mpr h)

theorem State.memWrite_inside {s : State} {addr : Nat} (h : addr < 256) (v : Byte) :
    s.memWrite addr v = .ok (s.setByte addr v) := if_pos h

theorem State.memWrite_beyond {s : State} {addr : Nat} (h : 256 ≤ addr) (v : Byte) :
    s.memWrite addr v = .error (.outOfRange addr) := if_neg (Nat.not_lt.mpr h)

/-- Settles O42: the range check of each access, and a byte read after the byte write. -/
theorem memoryAccessesKeepToTheirCell : Obligations.MemoryAccessesKeepToTheirCell := by
  intro s addr v hwf
  refine ⟨fun h => ⟨State.memRead_inside h, _, State.memWrite_inside h v, ?_, fun x hx => ?_, Memory.wf_write hwf v h⟩,
    fun h => ⟨State.memRead_beyond h, State.memWrite_beyond h v⟩⟩
  · rw [State.memRead_inside h, State.setByte_readByte hwf, if_pos rfl]
  · simp only [State.memRead, State.setByte_readByte_other s v hx]

/-- R38: a cell after a program that fits is loaded holds the program's byte that lies there, else what it held. -/
theorem State.load_readByte {s : State} {bytes : List Byte} {start x : Nat} (hwf : Memory.wf s.mem = true)
    (hfit : start + bytes.length ≤ 256) (hx : x < 256) :
    (s.load bytes start).readByte x =
      if start ≤ x then (bytes[x - start]?).getD (s.readByte x) else s.readByte x := by
  rw [State.load_fits hfit]
  exact Memory.read_writeList bytes start x hwf hx

/-- Settles O5, by the cells of a loaded program and the two outcomes of the load port. -/
theorem loadPortWritesTheProgramOrReportsIt : Obligations.LoadPortWritesTheProgramOrReportsIt := by
  intro s bytes start hwf
  refine ⟨fun hfit => ⟨fun k hk => ?_, fun x hx hout => ?_, ?_, ?_⟩, fun h => State.load_tooLarge h⟩
  · rw [State.load_readByte hwf hfit (by omega), if_pos (Nat.le_add_right start k), Nat.add_sub_cancel_left,
      List.getElem?_eq_getElem hk, Option.getD_some]
  · rw [State.load_readByte hwf hfit hx]
    split
    · next hle => rw [List.getElem?_eq_none (by omega), Option.getD_none]
    · rfl
  · rw [State.load_fits hfit]
    exact Memory.wf_writeList bytes start hwf
  · rw [State.load_fits hfit]

end Sys2Proof.Machine
end

section
/-!
The instruction cycle (spec/40_cycle.md R51 to R58): that a running core has a step, the instruction a step runs, the latches it
leaves, and the two policies.
-/
namespace Sys2Proof.Machine

/-! ### Every step -/

theorem step_next {s : State} (hr : s.status = .running) : ∃ t, step s = .next t := by
  obtain ⟨hsome, hnone⟩ := State.reports_firstFault hr
  cases hf : s.firstFault with
  | none => exact (hnone hf).imp fun _ h => h.1
  | some e => exact ⟨_, hsome e hf⟩

/-- Settles O15: a running core has a step, whose cases are those of the inversion lemma; a final status has none. -/
theorem onlyARunningCoreHasAStep : Obligations.OnlyARunningCoreHasAStep := by
  refine fun s => ⟨fun hr => ?_, step_halted, fun _ => step_faulted⟩
  obtain ⟨t, h⟩ := step_next hr
  obtain ⟨-, hraise | ⟨-, -, ⟨i, hd, hexec, -⟩ | ⟨hl, -, ht⟩⟩⟩ := step_cases h
  · exact ⟨t, h, .inl hraise⟩
  · exact ⟨t, h, .inr (.inl ⟨i, hd, hexec⟩)⟩
  · exact ⟨t, h, .inr (.inr ⟨hl, ht⟩)⟩

/-- Settles O13: the state `u` is the latched one, and the end of the step keeps a completed state and undoes a faulted one. -/
theorem stepRunsTheDecodedInstruction : Obligations.StepRunsTheDecodedInstruction := by
  intro s u i hr hpc hp hu hd
  obtain rfl : u = s.latched := hu
  obtain ⟨t, ht⟩ := exec_next i s.latched
  have hstep := step_decoded hr hpc hp hd
  rw [ht] at hstep
  exact ⟨t, ht, fun hn => hstep.trans (settle_completed hn), fun e he => hstep.trans (settle_faulted he)⟩

/-- The latches hold the operand bytes that stand after pc. -/
theorem State.map_some_prefix_latches {s : State} {vs : List Byte} (hlen : vs.length ≤ 2) (hfit : s.pc + 1 + vs.length ≤ 256)
    (h : ∀ (k : Nat) (hk : k < vs.length), s.readByte (s.pc + 1 + k) = vs[k]) :
    vs.map some <+: [s.latch (s.pc + 1), s.latch (s.pc + 2)] := by
  match vs, hlen with
  | [], _ => exact List.nil_prefix
  | [x], _ =>
    have hx : s.readByte (s.pc + 1) = x := h 0 (Nat.succ_pos _)
    rw [State.latch_inside (by simpa using hfit), hx]
    simp
  | [x, y], _ =>
    have hx : s.readByte (s.pc + 1) = x := h 0 (Nat.succ_pos _)
    have hy : s.readByte (s.pc + 2) = y := h 1 Nat.one_lt_two
    simp only [List.length_cons, List.length_nil] at hfit
    rw [State.latch_inside (by omega), State.latch_inside (by omega), hx, hy]
    simp

/-- Settles O14: the bytes of the encoding at pc are what the fetch latches, so they decode to the instruction. -/
theorem encodedInstructionAtPcRuns : Obligations.EncodedInstructionAtPcRuns := by
  intro s i hr hfit hp h
  rw [encode, List.length_cons] at hfit
  have hops : i.operandBytes.map some <+: [s.latch (s.pc + 1), s.latch (s.pc + 2)] := by
    refine State.map_some_prefix_latches i.operandBytes_length_le (by omega) fun k hk => ?_
    rw [Nat.add_assoc, Nat.add_comm 1 k]
    exact h (k + 1) (Nat.succ_lt_succ hk)
  exact step_decoded hr (by omega) hp (decode_eq_ok_iff.mpr ⟨h 0 (Nat.succ_pos _), hops⟩)

/-! ### The two policies -/

/-- R53: a step that raises no fault leaves the latches as its fetch wrote them. -/
theorem step_completed_latches {s t : State} (h : step s = .next t) (hn : ∀ e, t.status ≠ .faulted e) :
    t.a = s.latch (s.pc + 1) ∧ t.b = s.latch (s.pc + 2) := by
  obtain ⟨-, ⟨e, rfl⟩ | ⟨-, -, ⟨i, -, -, ha⟩ | ⟨-, -, rfl⟩⟩⟩ := step_cases h
  · exact absurd rfl (hn e)
  · obtain ⟨-, -, -, -, hla, hlb⟩ := after_kept ha
    exact ⟨hla, hlb⟩
  · exact ⟨rfl, rfl⟩

/-- The step of a core that meets no `OutOfRange` condition raises no `OutOfRange`. -/
theorem step_of_no_outOfRange {s : State} (hr : s.status = .running) (hf : ∀ x, s.firstFault ≠ some (.outOfRange x)) :
    ∃ t, step s = .next t ∧ (∀ x, t.status ≠ .faulted (.outOfRange x)) ∧
      ((∀ e, t.status ≠ .faulted e) → t.a = s.latch (s.pc + 1) ∧ t.b = s.latch (s.pc + 2)) := by
  obtain ⟨t, h⟩ := step_next hr
  exact ⟨t, h, fun x hx => hf x (firstFault_of_step_faulted h hx), step_completed_latches h⟩

/-- A known opcode meets no `OutOfRange` condition where its operands lie in memory and CALL's return address is a byte. -/
theorem Op.fault_ne_outOfRange {op : Op} {pc : Nat} (ha : 1 ≤ op.row.used → pc < 255) (hb : op.row.used = 2 → pc < 254)
    (hc : op = .call → pc < 254) (x y : Byte) (addr : Nat) : Op.fault op x y pc ≠ some (.outOfRange addr) := by
  unfold Op.fault
  split_ifs with hA hB _ _ hcall
  · have := ha hA.1; omega
  · have := hb hB.1; omega
  · nofun
  · nofun
  · have := hc hcall.1; omega
  · nofun

theorem Op.fault_eq_none_of_used_zero {op : Op} (hu : op.row.used = 0) (x y : Byte) (pc : Nat) : Op.fault op x y pc = none := by
  cases op with
  | hlt | ret => simp [Op.fault, Op.row, Op.registerChecks]
  | _ => cases hu

/-- R53: an opcode at 253 or below meets no `OutOfRange` condition. -/
theorem firstFault_ne_outOfRange {s : State} (hpc : s.pc ≤ 253) (addr : Nat) : s.firstFault ≠ some (.outOfRange addr) := by
  have hlt : s.pc < 256 := by omega
  cases hl : lookup (s.readByte s.pc) with
  | none =>
    rw [State.firstFault_unknown hlt (.inr hpc) hl]
    split_ifs
    · nofun
    · nofun
  | some op =>
    rw [State.firstFault_known hlt (.inr hpc) hl]
    exact Op.fault_ne_outOfRange (fun _ => by omega) (fun _ => by omega) (fun _ => by omega) _ _ addr

/-- Settles O17: the overrun of each policy, and the first fault condition of an opcode that meets none. -/
theorem operandOverrunFollowsThePolicy : Obligations.OperandOverrunFollowsThePolicy := by
  refine fun s hr => ⟨step_overrun hr, fun hp op hl => ?_, fun hpc => ?_⟩
  · have hcode := lookup_eq_some hl
    refine ⟨fun h hu => step_absentA hu hr h hcode, fun h hu => step_absentB hu hr h hcode, fun h hu => ?_, fun h hu hc => ?_⟩
    · have hf : s.firstFault = none := by
        rw [State.firstFault_known (by omega) (.inl hp) hl, Op.fault_eq_none_of_used_zero hu]
      obtain ⟨t, ht, hn⟩ := (State.reports_firstFault hr).2 hf
      obtain ⟨ha, hb⟩ := step_completed_latches ht hn
      exact ⟨t, ht, hn, ha.trans (State.latch_beyond (by omega)), hb.trans (State.latch_beyond (by omega))⟩
    · have hf : ∀ x, s.firstFault ≠ some (.outOfRange x) := by
        rw [State.firstFault_known (by omega) (.inl hp) hl]
        exact Op.fault_ne_outOfRange (fun _ => by omega) (fun _ => by omega) (fun h => absurd h hc) _ _
      obtain ⟨t, ht, hx, hab⟩ := step_of_no_outOfRange hr hf
      rw [h, State.latch_inside (by decide), State.latch_beyond (by decide)] at hab
      exact ⟨t, ht, hx, hab⟩
  · obtain ⟨t, ht, hx, hab⟩ := step_of_no_outOfRange hr (firstFault_ne_outOfRange hpc)
    rw [State.latch_inside (by omega), State.latch_inside (by omega)] at hab
    exact ⟨t, ht, hx, hab⟩

/-- Settles O18: the state an unknown opcode passed over leaves, and the fault of the other policy. -/
theorem unknownOpcodeFollowsThePolicy : Obligations.UnknownOpcodeFollowsThePolicy := by
  intro s hr hpc hp hl
  refine ⟨fun hc => ?_, step_unknown_fault hr hpc hp hl⟩
  have hadvance : s.passedOver.pc = s.pc + (s.readByte s.pc).toNat / 64 + 1 :=
    congrArg (s.pc + ·) (advanceLength_eq_div (s.readByte s.pc))
  exact ⟨_, step_unknown_ignore hr hpc hp hl hc, hadvance, rfl, hr, fun _ => rfl, fun _ => rfl, rfl, rfl, rfl⟩

/-! ### What no instruction does -/

theorem not_handlerFault_hlt {s : State} (e : CoreError) : ¬s.handlerFault .hlt e := by
  rintro (⟨r, hr, -⟩ | ⟨⟨r, hcall, -⟩, -⟩)
  · cases hr
  · cases hcall

/-- Settles O21: the status of a completed instruction, and HLT's opcode and advance read off a step that has halted. -/
theorem onlyHltHaltsTheCore : Obligations.OnlyHltHaltsTheCore := by
  refine ⟨fun i s t hr h => ?_, fun s t h hhalt => ?_⟩
  · rcases exec_next_cases h with ha | ⟨e, rfl, hf⟩
    · rw [after_status ha, hr]
      simp
    · have hne : i ≠ .hlt := fun hi => not_handlerFault_hlt e (hi ▸ hf)
      simp [hne]
  · obtain ⟨hr, ⟨e, rfl⟩ | ⟨-, -, ⟨i, hd, -, ha⟩ | ⟨-, -, rfl⟩⟩⟩ := step_cases h
    · cases hhalt
    · obtain rfl : i = .hlt := by
        by_contra hne
        rw [after_status ha, if_neg hne, State.latched_status, hr] at hhalt
        cases hhalt
      obtain rfl := ha
      exact ⟨lookup_eq_some (decode_op hd), s.latched.halt_advance_pc⟩
    · cases hr.symm.trans hhalt

theorem handlerFault_ne_programTooLarge {s : State} {i : Instr} {e : CoreError} (h : s.handlerFault i e) (n : Nat) :
    e ≠ .programTooLarge n := by
  rcases h with ⟨r, -, -, rfl⟩ | ⟨-, -, rfl⟩
  · nofun
  · nofun

/-- R77: `ProgramTooLarge` is the load port's alone. -/
theorem step_ne_programTooLarge {s t : State} (h : step s = .next t) (n : Nat) : t.status ≠ .faulted (.programTooLarge n) := by
  intro he
  rcases step_fault_cases h he with ⟨addr, hx⟩ | hx | ⟨i, -, hf⟩
  · cases hx
  · cases hx
  · exact handlerFault_ne_programTooLarge hf n rfl

/-- Settles O23: no case of a step writes the configuration or the flags register. -/
theorem configurationAndFlagsNeverChange : Obligations.ConfigurationAndFlagsNeverChange := by
  intro s t h
  have hkept : t.cfg = s.cfg ∧ t.fl = s.fl := by
    obtain ⟨-, ⟨e, rfl⟩ | ⟨-, -, ⟨i, -, -, ha⟩ | ⟨-, -, rfl⟩⟩⟩ := step_cases h
    · exact ⟨rfl, rfl⟩
    · obtain ⟨hcfg, hfl, -⟩ := after_kept ha
      exact ⟨hcfg, hfl⟩
    · exact ⟨rfl, rfl⟩
  exact ⟨hkept.1, hkept.2, step_ne_programTooLarge h⟩

end Sys2Proof.Machine
end

section
/-!
Frames (spec/10_state.md R14): what an instruction and a step leave unchanged.
-/
namespace Sys2Proof.Machine

/-! ### An instruction -/

/-- The registers an instruction may write: operand a of LDI, MUL, ADD and POP, the stack pointer of the stack instructions. -/
def Instr.writes (j : RegIndex) : Instr → Prop
  | .hlt | .prn _ => False
  | .ldi r _ | .mul r _ | .add r _ => j.val = r.toNat
  | .push _ | .call _ | .ret => j = 7
  | .pop r => j = 7 ∨ j.val = r.toNat

theorem after_reg {i : Instr} {s t : State} {j : RegIndex} (h : s.after i t) (hj : ¬Instr.writes j i) : t.reg j = s.reg j := by
  cases i with
  | hlt => subst h; rfl
  | prn r => obtain ⟨_, rfl⟩ := h; rfl
  | ldi r imm => obtain ⟨_, rfl⟩ := h; exact State.setReg_reg_other s _ (Fin.ne_of_val_ne hj)
  | mul ra rb | add ra rb => obtain ⟨_, _, rfl⟩ := h; exact State.setReg_reg_other s _ (Fin.ne_of_val_ne hj)
  | push r => obtain ⟨_, rfl⟩ := h; exact State.pushed_reg_other s hj
  | call r => obtain ⟨-, _, rfl⟩ := h; exact State.pushed_reg_other s hj
  | ret => subst h; exact State.popped_reg_other (s.setPc _) hj
  | pop r =>
    obtain ⟨_, rfl⟩ := h
    obtain ⟨hsp, hr⟩ := not_or.mp hj
    exact (State.popped_reg_other _ hsp).trans (State.setReg_reg_other s _ (Fin.ne_of_val_ne hr))

theorem after_readByte {i : Instr} {s t : State} (h : s.after i t) (hpush : i.op ≠ .push) (hcall : i.op ≠ .call) (x : Nat) :
    t.readByte x = s.readByte x := by
  cases i with
  | hlt | ret => subst h; rfl
  | ldi r imm | prn r | pop r => obtain ⟨_, rfl⟩ := h; rfl
  | mul ra rb | add ra rb => obtain ⟨_, _, rfl⟩ := h; rfl
  | push r => exact absurd rfl hpush
  | call r => exact absurd rfl hcall

/-- R25: the one cell that PUSH and CALL store to is the decremented stack pointer's. -/
theorem after_readByte_other {i : Instr} {s t : State} (h : s.after i t) {x : Nat} (hx : x ≠ s.pushed.sp.toNat) :
    t.readByte x = s.readByte x := by
  cases i with
  | push r => obtain ⟨_, rfl⟩ := h; exact State.setByte_readByte_other s.pushed _ hx
  | call r => obtain ⟨-, _, rfl⟩ := h; exact State.setByte_readByte_other s.pushed _ hx
  | _ => exact after_readByte h nofun nofun x

theorem after_out {i : Instr} {s t : State} (h : s.after i t) (hi : ∀ r, i ≠ .prn r) : t.out = s.out := by
  cases i with
  | hlt | ret => subst h; rfl
  | ldi r imm | push r | pop r => obtain ⟨_, rfl⟩ := h; rfl
  | mul ra rb | add ra rb | call r => obtain ⟨_, _, rfl⟩ := h; rfl
  | prn r => exact absurd rfl (hi r)

theorem after_prn_out {r : Byte} {s t : State} (h : s.after (.prn r) t) :
    ∃ hr : r.toNat < 8, t.out = s.out ++ [s.reg ⟨r.toNat, hr⟩] := by
  obtain ⟨hr, rfl⟩ := h
  exact ⟨hr, rfl⟩

/-! A fault raised keeps all of these too, so they hold of every answer of `exec`. -/

section
variable {i : Instr} {s t : State} (h : exec i s = .next t)
include h

theorem exec_kept : t.fl = s.fl ∧ t.cfg = s.cfg ∧ t.ir = s.ir ∧ t.a = s.a ∧ t.b = s.b ∧ t.diag = s.diag := by
  rcases exec_next_cases h with ha | ⟨e, rfl, -⟩
  · obtain ⟨hcfg, hfl, hdiag, hir, hla, hlb⟩ := after_kept ha
    exact ⟨hfl, hcfg, hir, hla, hlb, hdiag⟩
  · exact ⟨rfl, rfl, rfl, rfl, rfl, rfl⟩

theorem exec_reg {j : RegIndex} (hj : ¬Instr.writes j i) : t.reg j = s.reg j := by
  rcases exec_next_cases h with ha | ⟨e, rfl, -⟩
  · exact after_reg ha hj
  · rfl

theorem exec_out (hi : ∀ r, i ≠ .prn r) : t.out = s.out := by
  rcases exec_next_cases h with ha | ⟨e, rfl, -⟩
  · exact after_out ha hi
  · rfl

theorem exec_status (hi : i ≠ .hlt) : t.status = s.status ∨ ∃ e, t.status = .faulted e := by
  rcases exec_next_cases h with ha | ⟨e, rfl, -⟩
  · exact .inl ((after_status ha).trans (if_neg hi))
  · exact .inr ⟨e, rfl⟩

theorem exec_readByte (hpush : i.op ≠ .push) (hcall : i.op ≠ .call) (x : Nat) : t.readByte x = s.readByte x := by
  rcases exec_next_cases h with ha | ⟨e, rfl, -⟩
  · exact after_readByte ha hpush hcall x
  · rfl

theorem exec_readByte_other {x : Nat} (hx : x ≠ s.pushed.sp.toNat) : t.readByte x = s.readByte x := by
  rcases exec_next_cases h with ha | ⟨e, rfl, -⟩
  · exact after_readByte_other ha hx
  · rfl

end

theorem exec_prn_out {r : Byte} {s t : State} (h : exec (.prn r) s = .next t) :
    t.out = s.out ∨ ∃ hr : r.toNat < 8, t.out = s.out ++ [s.reg ⟨r.toNat, hr⟩] := by
  rcases exec_next_cases h with ha | ⟨e, rfl, -⟩
  · exact .inr (after_prn_out ha)
  · exact .inl rfl

/-- Settles O44, by the rules above: none of the three is HLT, PRN, PUSH or CALL. -/
theorem ldiMulAddChangeOneRegister : Obligations.LdiMulAddChangeOneRegister := by
  intro r x i s t hi h
  obtain ⟨hfl, hcfg, hir, hla, hlb, hdiag⟩ := exec_kept h
  rcases hi with rfl | rfl | rfl
  all_goals exact ⟨fun j hj => exec_reg h hj, hfl, hcfg, hir, hla, hlb, exec_out h nofun, hdiag, exec_status h nofun,
    exec_readByte h nofun nofun⟩

/-- Settles O45; PRN's output is as before where it raises a fault. -/
theorem hltAndPrnChangeNoRegisterAndNoMemory : Obligations.HltAndPrnChangeNoRegisterAndNoMemory := by
  intro r i s t hi h
  obtain ⟨hfl, hcfg, hir, hla, hlb, hdiag⟩ := exec_kept h
  rcases hi with rfl | rfl
  · exact ⟨fun j => exec_reg h not_false, hfl, hcfg, hir, hla, hlb, hdiag, fun _ => exec_out h nofun, nofun, nofun,
      exec_readByte h nofun nofun⟩
  · exact ⟨fun j => exec_reg h not_false, hfl, hcfg, hir, hla, hlb, hdiag, nofun, fun _ => exec_prn_out h,
      fun _ => exec_status h nofun, exec_readByte h nofun nofun⟩

/-- Settles O46; the cell stored to is named by the stack pointer of `State.pushed`. -/
theorem pushAndCallStoreOneByte : Obligations.PushAndCallStoreOneByte := by
  intro r i s t hi h
  obtain ⟨hfl, hcfg, hir, hla, hlb, hdiag⟩ := exec_kept h
  have hmem : ∀ addr, addr = s.pushed.sp.toNat → ∀ y, y ≠ addr → t.readByte y = s.readByte y := by
    rintro _ rfl y hy
    exact exec_readByte_other h hy
  rcases hi with rfl | rfl
  all_goals exact ⟨fun j hj => exec_reg h hj, hfl, hcfg, hir, hla, hlb, exec_out h nofun, hdiag, exec_status h nofun, hmem⟩

/-- Settles O47; POP writes two registers, RET one, and neither is PUSH or CALL. -/
theorem popAndRetStoreNothing : Obligations.PopAndRetStoreNothing := by
  intro r i s t hi h
  obtain ⟨hfl, hcfg, hir, hla, hlb, hdiag⟩ := exec_kept h
  rcases hi with rfl | rfl
  · exact ⟨fun j hsp hr => exec_reg h (not_or.mpr ⟨hsp, hr rfl⟩), hfl, hcfg, hir, hla, hlb, exec_out h nofun, hdiag,
      exec_status h nofun, exec_readByte h nofun nofun⟩
  · exact ⟨fun j hsp _ => exec_reg h hsp, hfl, hcfg, hir, hla, hlb, exec_out h nofun, hdiag, exec_status h nofun,
      exec_readByte h nofun nofun⟩

/-! ### A step -/

/-- Settles O24: of the cases of a step only a completed PUSH or CALL writes memory. -/
theorem onlyPushAndCallWriteMemory : Obligations.OnlyPushAndCallWriteMemory := by
  intro s t h
  obtain ⟨-, ⟨e, rfl⟩ | ⟨-, -, ⟨i, hd, -, ha⟩ | ⟨-, -, rfl⟩⟩⟩ := step_cases h
  · exact .inl fun _ => rfl
  · have hcode : s.readByte s.pc = i.op.row.code := lookup_eq_some (decode_op hd)
    have hother : ∀ x, x ≠ ((s.reg 7).toNat + 255) % 256 → t.readByte x = s.readByte x := fun x hx =>
      after_readByte_other ha (s.latched.pushed_sp_toNat ▸ hx)
    by_cases hpush : i.op = .push
    · rw [hpush] at hcode
      exact .inr ⟨.inl hcode, hother⟩
    · by_cases hcall : i.op = .call
      · rw [hcall] at hcode
        exact .inr ⟨.inr hcode, hother⟩
      · exact .inl (after_readByte (s := s.latched) ha hpush hcall)
  · exact .inl fun _ => rfl

theorem State.latch_eq_some {s : State} {x : Nat} {v : Byte} (h : s.latch x = some v) : s.readByte x = v := by
  unfold State.latch at h
  split_ifs at h
  exact Option.some.inj h

/-- The bytes at pc decode to PRN of the byte after it. -/
theorem decode_prn {s : State} {r : Byte}
    (hd : decode (s.readByte s.pc) (s.latch (s.pc + 1)) (s.latch (s.pc + 2)) = .ok (.prn r)) :
    s.readByte s.pc = 71 ∧ s.readByte (s.pc + 1) = r := by
  obtain ⟨hcode, hops⟩ := decode_eq_ok_iff.mp hd
  exact ⟨hcode, State.latch_eq_some (List.cons_prefix_cons.mp hops).1.symm⟩

theorem step_out {s t : State} (h : step s = .next t) :
    t.out = s.out ∨ (s.readByte s.pc = 71 ∧
      ∃ hr : (s.readByte (s.pc + 1)).toNat < 8, t.out = s.out ++ [s.reg ⟨(s.readByte (s.pc + 1)).toNat, hr⟩]) := by
  obtain ⟨-, ⟨e, rfl⟩ | ⟨-, -, ⟨i, hd, -, ha⟩ | ⟨-, -, rfl⟩⟩⟩ := step_cases h
  · exact .inl rfl
  · by_cases hi : ∃ r, i = .prn r
    · obtain ⟨r, rfl⟩ := hi
      obtain ⟨hcode, rfl⟩ := decode_prn hd
      exact .inr ⟨hcode, after_prn_out (s := s.latched) ha⟩
    · exact .inl (after_out (s := s.latched) ha (not_exists.mp hi))
  · exact .inl rfl

theorem step_diag {s t : State} (h : step s = .next t) :
    t.diag = s.diag ∨ (lookup (s.readByte s.pc) = none ∧ s.cfg.unknownOpcode = .ignore ∧
      t.diag = s.diag ++ [(s.pc, s.readByte s.pc)]) := by
  obtain ⟨-, ⟨e, rfl⟩ | ⟨-, -, ⟨i, -, -, ha⟩ | ⟨hl, hc, rfl⟩⟩⟩ := step_cases h
  · exact .inl rfl
  · obtain ⟨-, -, hdiag, -⟩ := after_kept ha
    exact .inl hdiag
  · exact .inr ⟨hl, hc, rfl⟩

/-- Settles O25, by the cases of a step: a completed PRN for the output, an opcode passed over for the log. -/
theorem outputAndLogGrowOnlyByTheirOwnOpcodes : Obligations.OutputAndLogGrowOnlyByTheirOwnOpcodes :=
  fun _ _ h => ⟨step_out h, step_diag h⟩

end Sys2Proof.Machine
end

section
/-!
PRN (spec/41_halt_and_output.md R62), the stack (spec/43_stack.md R68, R69, R70), CALL (spec/44_call_return.md R71, R73), and a PUSH
into the program (spec/20_memory.md R36, spec/70_reset_and_hazards.md R96).
-/
namespace Sys2Proof.Machine

/-! ### What the four instructions with one register operand share -/

/-- R53: an instruction that reads one operand byte overruns at 255. -/
theorem step_oneOperand_overrun (op : Op) (hu : op.row.used = 1) {s : State} (hr : s.status = .running) (hpc : s.pc = 255)
    (hc : s.readByte 255 = op.row.code) : step s = .next (s.raise (.outOfRange 256)) :=
  step_absentA (Nat.le_of_eq hu.symm) hr hpc (hpc ▸ hc)

/-- The generic advance of an instruction of two bytes. -/
theorem State.advance_pc_two (s : State) {op : Op} (hu : op.row.used = 1) : (s.advance op.row.code).pc = s.pc + 2 := by
  rw [State.advance_pc, advanceLength_code, hu]

/-- Settles O30, by the state PRN answers and the two faults it can meet. -/
theorem prnEmitsTheRegisterByte : Obligations.PrnEmitsTheRegisterByte :=
  ⟨fun _ h s => ⟨_, execPrn_valid h s, rfl, State.advance_pc_two _ rfl, rfl⟩, fun _ s h => execPrn_invalid h s, fun _ => rfl,
    fun _ => step_oneOperand_overrun .prn rfl⟩

/-! ### The stack -/

/-- A register operand other than the byte 7 names a register other than the stack pointer. -/
theorem registerIndex_ne_seven {r : Byte} (h : r.toNat < 8) (hr : r ≠ 7) : (⟨r.toNat, h⟩ : RegIndex) ≠ 7 := by
  intro he
  have hv : r.toNat = 7 := congrArg Fin.val he
  exact hr (BitVec.eq_of_toNat_eq hv)

/-- D8: the register read after the decrement is the decremented stack pointer for R7, and as before for any other. -/
theorem State.pushed_reg (s : State) {r : Byte} (h : r.toNat < 8) :
    s.pushed.reg ⟨r.toNat, h⟩ = if r = 7 then s.pushed.reg 7 else s.reg ⟨r.toNat, h⟩ := by
  split
  · next hr => subst hr; rfl
  · next hr => exact State.pushed_reg_other s (registerIndex_ne_seven h hr)

/-- The state after PUSH or CALL stores `v`: SP one lower, and `v` in the cell it then names. -/
def State.pushedByte (s : State) (v : Byte) : State := s.pushed.setByte s.pushed.sp.toNat v

theorem exec_push_valid {r : Byte} (h : r.toNat < 8) (s : State) :
    exec (.push r) s = .next ((s.pushedByte (s.pushed.reg ⟨r.toNat, h⟩)).advance Op.push.row.code) := execPush_valid h s

theorem exec_call_valid {r : Byte} (h : r.toNat < 8) {s : State} (hpc : s.pc ≤ 253) :
    exec (.call r) s = .next ((s.pushedByte (BitVec.ofNat 8 (s.pc + 2))).setPc (s.pushed.reg ⟨r.toNat, h⟩).toNat) :=
  execCall_valid h hpc

theorem State.pushedByte_top {s : State} (hwf : Memory.wf s.mem = true) (v : Byte) :
    (s.pushedByte v).readByte (s.pushed.reg 7).toNat = v := by
  rw [State.pushedByte, State.setByte_readByte (s := s.pushed) hwf]
  exact if_pos rfl

/-- D9: the return address of a CALL at 253 or below is a byte. -/
theorem returnAddress_toNat {pc : Nat} (h : pc ≤ 253) : (BitVec.ofNat 8 (pc + 2)).toNat = pc + 2 := by
  rw [BitVec.toNat_ofNat, Nat.mod_eq_of_lt (by omega)]

/-- Settles O34, by the state that PUSH stores in. -/
theorem pushStoresAtTheDecrementedStackPointer : Obligations.PushStoresAtTheDecrementedStackPointer := by
  refine ⟨fun r h s hwf => ?_, fun _ s h => execPush_invalid h s, fun _ => rfl, fun _ => step_oneOperand_overrun .push rfl⟩
  exact ⟨_, exec_push_valid h s, s.pushed_sp_toNat, (State.pushedByte_top hwf _).trans (s.pushed_reg h),
    State.advance_pc_two _ rfl, rfl⟩

/-- Settles O36, by the state that CALL stores in, from which it jumps. -/
theorem callPushesTheReturnAddressAndJumps : Obligations.CallPushesTheReturnAddressAndJumps := by
  refine ⟨fun r h s hwf hpc => ?_, fun _ s h => execCall_invalid h s, fun _ s h hpc => execCall_noReturn h hpc, fun _ => rfl,
    fun _ => step_oneOperand_overrun .call rfl⟩
  have htop := congrArg BitVec.toNat (State.pushedByte_top hwf (BitVec.ofNat 8 (s.pc + 2)))
  exact ⟨_, exec_call_valid h hpc, s.pushed_sp_toNat, htop.trans (returnAddress_toNat hpc),
    congrArg BitVec.toNat (s.pushed_reg h), rfl⟩

/-- The state after POP loads `v` into register `i`: SP one higher, taken after the load. -/
def State.poppedInto (s : State) (i : RegIndex) (v : Byte) : State := (s.setReg i v.toNat).popped

theorem exec_pop_valid {r : Byte} (h : r.toNat < 8) (s : State) :
    exec (.pop r) s = .next ((s.poppedInto ⟨r.toNat, h⟩ (s.readByte (s.reg 7).toNat)).advance Op.pop.row.code) :=
  execPop_valid h s

theorem State.poppedInto_reg (s : State) {i : RegIndex} (h : i ≠ 7) (v : Byte) : (s.poppedInto i v).reg i = v := by
  rw [State.poppedInto, State.popped_reg_other _ h, State.setReg_reg_same, ofInt_toNat]

theorem State.poppedInto_sp_toNat (s : State) {i : RegIndex} (h : i ≠ 7) (v : Byte) :
    ((s.poppedInto i v).reg 7).toNat = ((s.reg 7).toNat + 1) % 256 := by
  have hsp : (s.setReg i v.toNat).reg 7 = s.reg 7 := State.setReg_reg_other s _ h.symm
  rw [← hsp]
  exact State.popped_sp_toNat (s.setReg i v.toNat)

/-- D8: POP R7 leaves the byte plus one. -/
theorem State.poppedInto_seven_sp_toNat (s : State) (v : Byte) : ((s.poppedInto 7 v).reg 7).toNat = (v.toNat + 1) % 256 := by
  have hsp : (s.setReg 7 v.toNat).reg 7 = v := by rw [State.setReg_reg_same, ofInt_toNat]
  rw [State.poppedInto]
  exact (State.popped_sp_toNat _).trans (by rw [hsp])

/-- Settles O35, by the state that POP answers. -/
theorem popLoadsFromTheStackPointer : Obligations.PopLoadsFromTheStackPointer := by
  refine ⟨fun r h s => ?_, fun _ s h => execPop_invalid h s, fun _ => rfl, fun _ => step_oneOperand_overrun .pop rfl⟩
  refine ⟨_, exec_pop_valid h s, fun hr => ?_, fun hr => ?_, State.advance_pc_two _ rfl, rfl⟩
  · have hi := registerIndex_ne_seven h hr
    exact ⟨State.poppedInto_reg s hi _, State.poppedInto_sp_toNat s hi _⟩
  · subst hr
    exact State.poppedInto_seven_sp_toNat s _

/-! ### A push undone -/

/-- SP goes down by one in a push and up by one in a pop. -/
theorem State.poppedInto_sp_of_pushed {s t : State} (h : t.reg 7 = s.pushed.reg 7) {i : RegIndex} (hi : i ≠ 7) (v : Byte) :
    (t.poppedInto i v).reg 7 = s.reg 7 := by
  have hdown : (s.pushed.reg 7).toNat = ((s.reg 7).toNat + 255) % 256 := s.pushed_sp_toNat
  have hlt : (s.reg 7).toNat < 256 := (s.reg 7).isLt
  apply BitVec.eq_of_toNat_eq
  rw [State.poppedInto_sp_toNat t hi, h, hdown]
  omega

/-- Settles O48: the byte pushed is the byte popped. -/
theorem pushThenPopMovesTheRegister : Obligations.PushThenPopMovesTheRegister := by
  intro r r₂ h h₂ s hwf
  have hi : (⟨r₂.toNat, Nat.lt_succ_of_lt h₂⟩ : RegIndex) ≠ 7 := fun he => Nat.ne_of_lt h₂ (Fin.val_eq_of_eq he)
  have htop := (State.pushedByte_top hwf (s.pushed.reg ⟨r.toNat, h⟩)).trans (s.pushed_reg h)
  refine ⟨_, _, exec_push_valid h s, exec_pop_valid (Nat.lt_succ_of_lt h₂) _, State.poppedInto_sp_of_pushed rfl hi _,
    fun hr => ?_, fun hr => ?_, ?_⟩
  · exact (State.poppedInto_reg _ hi _).trans (htop.trans (if_neg hr))
  · refine (congrArg BitVec.toNat (?_ : _ = s.pushed.reg 7)).trans s.pushed_sp_toNat
    exact (State.poppedInto_reg _ hi _).trans (htop.trans (if_pos hr))
  · exact (State.advance_pc_two _ rfl).trans (congrArg (· + 2) (State.advance_pc_two _ rfl))

/-- Settles O49: the return address pushed is the byte RET finds at SP, and the pop restores the registers. -/
theorem callThenRetReturnsAfterTheCall : Obligations.CallThenRetReturnsAfterTheCall := by
  intro r s h hwf hpc
  have htop := congrArg BitVec.toNat (State.pushedByte_top hwf (BitVec.ofNat 8 (s.pc + 2)))
  exact ⟨_, _, exec_call_valid h hpc, exec_ret _, htop.trans (returnAddress_toNat hpc),
    State.popped_pushed_reg s _ fun _ => rfl, rfl⟩

/-! ### A PUSH into the program -/

/-- R36: a step on PUSH runs it with the operand its fetch has latched. -/
theorem step_push {s : State} (h : (s.readByte (s.pc + 1)).toNat < 8) (hr : s.status = .running) (hpc : s.pc ≤ 254)
    (hp : s.cfg.operandOverrun = .faultIfUsed ∨ s.pc ≤ 253) (hc : s.readByte s.pc = Op.push.row.code) :
    step s = .next ((s.latched.pushedByte (s.latched.pushed.reg ⟨(s.readByte (s.pc + 1)).toNat, h⟩)).advance
      Op.push.row.code) := by
  have hl : lookup (s.readByte s.pc) = some .push := by rw [hc, lookup_code]
  rw [step_instr hr (by omega) hp hl (fun _ => by omega) nofun]
  change settle s (exec (.push _) s.latched) = _
  have hstatus : s.latched.status = .running := hr
  rw [exec_push_valid h]
  exact settle_completed (after_not_faulted (i := .push _) hstatus ⟨h, rfl⟩)

/-- Settles O28: the byte at the decremented stack pointer is the one stored; a completed step leaves `ir` at the byte at pc. -/
theorem storeIntoTheProgramIsSeenByTheNextFetch : Obligations.StoreIntoTheProgramIsSeenByTheNextFetch := by
  intro s h hwf hr hpc hp hc
  have htop := State.pushedByte_top (s := s.latched) hwf (s.latched.pushed.reg ⟨(s.readByte (s.pc + 1)).toNat, h⟩)
  have hsp : (s.latched.pushed.reg 7).toNat = ((s.reg 7).toNat + 255) % 256 := s.latched.pushed_sp_toNat
  rw [hsp] at htop
  refine ⟨_, step_push h hr hpc hp hc, State.advance_pc_two _ rfl, htop, fun hnext u hu hn => ?_⟩
  rw [step_completed_ir hu hn, hnext]
  exact htop

end Sys2Proof.Machine
end

section
/-!
Runs (spec/70_reset_and_hazards.md R99, spec/40_cycle.md R59): a run has one end, and a run that has none.
-/
namespace Sys2Proof.Machine

/-! ### The end of a run -/

/-- The step as a relation, which is a function. -/
def StepsTo (s t : State) : Prop := step s = .next t

theorem StepsTo.rightUnique : Relator.RightUnique StepsTo := fun _ _ _ ht hu => Host.Outcome.next.inj (ht.symm.trans hu)

theorem reflTransGen_of_reaches {s t : State} (h : Reaches s t) : Relation.ReflTransGen StepsTo s t := by
  induction h with
  | refl => exact .refl
  | tail _ hstep ih => exact ih.tail hstep

/-- A final state reaches itself alone. -/
theorem eq_of_final_reaches {s t : State} (hs : s.isFinal = true) (h : Relation.ReflTransGen StepsTo s t) : s = t := by
  rcases h.cases_head with heq | ⟨u, hstep, -⟩
  · exact heq
  · exact absurd (running_of_step hstep) (of_decide_eq_true hs)

/-- Settles O26: of two states of one run one reaches the other, and a final state reaches itself alone. -/
theorem runEndsInAtMostOneState : Obligations.RunEndsInAtMostOneState := by
  rintro s t u ⟨hst, ht⟩ ⟨hsu, hu⟩
  rcases Relation.ReflTransGen.total_of_right_unique StepsTo.rightUnique (reflTransGen_of_reaches hst)
    (reflTransGen_of_reaches hsu) with htu | hut
  · exact eq_of_final_reaches ht htu
  · exact (eq_of_final_reaches hu hut).symm

/-! ### A run without an end -/

/-- A program of RET in every cell: the byte RET pops is RET's opcode too, so the run goes on at 17 whatever SP is. -/
def retProgram : List Byte := List.replicate 256 Op.ret.row.code

/-- What every state of the run of `retProgram` meets. -/
structure State.Returning (s : State) : Prop where
  running : s.status = .running
  pc_le : s.pc ≤ 17
  all_ret : ∀ x, x < 256 → s.readByte x = Op.ret.row.code

theorem State.boot_returning (cfg : Config) : (State.boot cfg retProgram).Returning := by
  have hfit : entryPoint + retProgram.length ≤ 256 := by rw [retProgram, List.length_replicate]
  have hload := State.load_fits (s := State.construct cfg) hfit
  refine ⟨?_, ?_, fun x hx => ?_⟩
  · rw [State.boot, hload]; rfl
  · rw [State.boot, hload]; exact Nat.zero_le _
  · rw [State.boot, State.load_readByte Memory.wf_nil hfit hx, if_pos (Nat.zero_le x), Nat.sub_zero, retProgram,
      List.getElem?_replicate_of_lt hx, Option.getD_some]

/-- Each step of it is a RET. -/
theorem State.Returning.step {s : State} (h : s.Returning) : step s = .next s.latched.returned := by
  have hpc := h.pc_le
  exact step_ret h.running (h.all_ret s.pc (by omega)) (by omega) (.inr (by omega))

theorem State.Returning.returned {s : State} (h : s.Returning) : s.latched.returned.Returning where
  running := h.running
  pc_le := by
    have htop : s.readByte (s.reg 7).toNat = Op.ret.row.code := h.all_ret _ (byte_lt_memSize _)
    rw [State.returned_pc, State.latched_readByte, State.latched_reg, htop]
    decide
  all_ret := h.all_ret

/-- Settles O27, by the run of RETs. -/
theorem someRunNeverEnds : Obligations.SomeRunNeverEnds := by
  refine ⟨retProgram, by rw [retProgram, List.length_replicate], fun cfg t h => ?_⟩
  have keeps : ∀ s t : State, s.Returning → Machine.step s = .next t → t.Returning := fun s t hs hstep => by
    obtain rfl := Host.Outcome.next.inj (hs.step.symm.trans hstep)
    exact hs.returned
  have ht := h.keeps keeps (State.boot_returning cfg)
  exact ⟨ht.running, _, ht.step⟩

end Sys2Proof.Machine
end

section
/-!
Tables of the spec (spec/30_encoding.md R43, R45; spec/60_exceptions.md R74): finite facts about opcodes and fault kinds.
-/
namespace Sys2Proof.Machine

/-- Settles O6: each word is the encoding of its instruction. -/
theorem tableWordsDecodeToTheirInstructions : Obligations.TableWordsDecodeToTheirInstructions := by
  have decodes : ∀ i : Instr, decodeBytes (encode i) = .ok i := fun i =>
    (decodeReadsExactlyTheEncodedBytes (encode i) i).mpr ⟨[], (List.append_nil _).symm⟩
  exact ⟨decodes .hlt, decodes (.ldi 0 8), decodes (.prn 3), decodes (.mul 1 2), decodes (.add 7 4), decodes (.push 5),
    decodes (.pop 6), decodes (.call 1), decodes .ret⟩

/-- Settles O8, by counting: each clause looks 256 bytes up. -/
theorem unknownOpcodesCountByClass : Obligations.UnknownOpcodesCountByClass := by
  unfold Obligations.UnknownOpcodesCountByClass
  decide +kernel

/-- Settles O39: each kind has the code of its row. -/
theorem faultCodesAreTheTabledOnes : Obligations.FaultCodesAreTheTabledOnes := by
  intro e code
  cases e <;> simp [CoreError.code, eq_comm]

end Sys2Proof.Machine
end

section
/-!
The text forms (spec/30_encoding.md R48, spec/41_halt_and_output.md R63): the decimal digits of a byte, the tokens of a line, and the
line of an instruction.
-/
namespace Sys2Proof.Machine

/-! ### Decimal digits -/

theorem digitValue_lt_ten {c : Char} (h : c.isDigit = true) : digitValue c < 10 := by
  have hc := (Char.isDigit_iff_toNat.mp h).2
  simp only [digitValue]
  have h9 : '9'.toNat = 57 := rfl
  have h0 : '0'.toNat = 48 := rfl
  omega

/-- The model's reader of decimal digits is the library's. -/
theorem digitsFrom_ten {cs : List Char} (h : ∀ c ∈ cs, c.isDigit = true) (acc : Nat) :
    digitsFrom 10 acc cs = some (Nat.ofDigitChars 10 cs acc) := by
  induction cs generalizing acc with
  | nil => rfl
  | cons c cs ih =>
    obtain ⟨hc, hcs⟩ := List.forall_mem_cons.mp h
    rw [digitsFrom, hc, decide_eq_true (digitValue_lt_ten hc), Bool.and_self, if_pos rfl, ih hcs, Nat.ofDigitChars_cons,
      Nat.mul_comm acc 10]
    rfl

theorem isDigit_of_mem_decimalText {v : Byte} {c : Char} (h : c ∈ decimalText v) : c.isDigit = true :=
  Nat.isDigit_of_mem_toDigits (by decide) (Nat.le_refl 10) h

theorem decimalText_ne_nil (v : Byte) : decimalText v ≠ [] := Nat.toDigits_ne_nil

theorem digitsFrom_decimalText (v : Byte) : digitsFrom 10 0 (decimalText v) = some v.toNat := by
  rw [digitsFrom_ten fun _ => isDigit_of_mem_decimalText, decimalText, Nat.ofDigitChars_ten_toDigits]

theorem eq_zero_of_digitChar : ∀ n < 10, Nat.digitChar n = '0' → n = 0 := by decide

/-- A decimal number has no leading zero but in 0. -/
theorem eq_zero_of_head_toDigits (n : Nat) (h : (Nat.toDigits 10 n).head? = some '0') : n = 0 := by
  induction n using Nat.strong_induction_on with
  | _ n ih =>
    by_cases hn : n < 10
    · rw [Nat.toDigits_of_lt_base hn] at h
      exact eq_zero_of_digitChar n hn (Option.some.inj h)
    · rw [Nat.toDigits_of_base_le (by decide) (Nat.not_lt.mp hn), List.head?_append_of_ne_nil _ Nat.toDigits_ne_nil] at h
      have := ih (n / 10) (by omega) h
      omega

/-- Settles O43: the digits are the library's, whose value is the byte and which have no leading zero. -/
theorem hostLineIsTheUnpaddedDecimal : Obligations.HostLineIsTheUnpaddedDecimal := by
  refine fun v => ⟨decimalText v, rfl, decimalText_ne_nil v, digitsFrom_decimalText v, fun h => ?_⟩
  have hv : v = 0 := BitVec.eq_of_toNat_eq (eq_zero_of_head_toDigits v.toNat h)
  exact ⟨hv, by rw [hv]; rfl⟩

/-! ### Tokens -/

/-- No separator is a letter or a digit. -/
theorem isAlphanum_of_isSeparator {c : Char} (h : isSeparator c = true) : c.isAlphanum = false := by
  simp only [isSeparator, Char.isWhitespace, Bool.or_eq_true, beq_iff_eq, decide_eq_true_eq] at h
  rcases h with (((rfl | rfl) | rfl) | rfl) | rfl <;> rfl

/-- The text `t` is one token, of letters and digits, which stands for the byte `v`. -/
structure ReadsAs (t : List Char) (v : Byte) : Prop where
  ne_nil : t ≠ []
  alphanum : ∀ c ∈ t, c.isAlphanum = true
  byte : tokenByte t = some v

theorem ReadsAs.no_separator {t : List Char} {v : Byte} (h : ReadsAs t v) : ∀ c ∈ t, isSeparator c = false := fun c hc =>
  Bool.eq_false_iff.mpr fun hsep => Bool.false_ne_true ((isAlphanum_of_isSeparator hsep).symm.trans (h.alphanum c hc))

theorem isAlpha_of_mem_mnemonic {op : Op} : ∀ c ∈ opMnemonic op, c.isAlpha = true :=
  List.all_eq_true.mp (by cases op <;> rfl)

theorem isDigit_of_mem_mnemonic {op : Op} : ∀ c ∈ opMnemonic op, (!c.isDigit) = true :=
  List.all_eq_true.mp (by cases op <;> rfl)

theorem mnemonic_ne_nil (op : Op) : opMnemonic op ≠ [] := by cases op <;> nofun

theorem mnemonic_readsAs (op : Op) : ReadsAs (opMnemonic op) op.row.code where
  ne_nil := mnemonic_ne_nil op
  alphanum c hc := by rw [Char.isAlphanum, isAlpha_of_mem_mnemonic c hc, Bool.true_or]
  byte := by cases op <;> rfl

theorem isAlphanum_of_mem_decimalText {v : Byte} {c : Char} (h : c ∈ decimalText v) : c.isAlphanum = true := by
  rw [Char.isAlphanum, isDigit_of_mem_decimalText h, Bool.or_true]

/-- A register has the token `R<d>` of one digit. -/
theorem registerText_readsAs {r : Byte} (h : r.toNat < 8) : ReadsAs (registerText r) r := by
  have htext : registerText r = 'R' :: decimalText r := if_pos (Nat.lt_trans h (by decide))
  have hbyte : ∀ n < 8, tokenByte ('R' :: Nat.toDigits 10 n) = some (BitVec.ofNat 8 n) := by
    intro n hn
    interval_cases n <;> rfl
  refine htext ▸ ⟨List.cons_ne_nil _ _, List.forall_mem_cons.mpr ⟨rfl, fun _ => isAlphanum_of_mem_decimalText⟩, ?_⟩
  rw [decimalText, hbyte _ h, BitVec.ofNat_toNat, BitVec.setWidth_eq]

/-- A number is read as one, for no mnemonic has a digit in it. -/
theorem tokenByte_decimalText (v : Byte) : tokenByte (decimalText v) = decimalByte (decimalText v) := by
  have hfind : (Op.all.find? fun op => opMnemonic op == decimalText v) = none := by
    refine List.find?_eq_none.mpr fun op _ heq => ?_
    obtain ⟨c, hc⟩ := List.exists_mem_of_ne_nil _ (mnemonic_ne_nil op)
    have hdigit := isDigit_of_mem_decimalText (beq_iff_eq.mp heq ▸ hc)
    simpa [hdigit] using isDigit_of_mem_mnemonic c hc
  unfold tokenByte
  rw [hfind]
  split
  · next hsome => cases hsome
  · split
    · next d hR => exact absurd (isDigit_of_mem_decimalText (hR ▸ List.mem_cons_self)) (by decide)
    · rfl

theorem decimalText_readsAs (v : Byte) : ReadsAs (decimalText v) v where
  ne_nil := decimalText_ne_nil v
  alphanum _ := isAlphanum_of_mem_decimalText
  byte := by
    rw [tokenByte_decimalText, decimalByte, if_neg (decimalText_ne_nil v), digitsFrom_decimalText]
    simp [v.isLt]

/-! ### Lines -/

theorem tokensFrom_append {t : List Char} (h : ∀ c ∈ t, isSeparator c = false) (cur rest : List Char) :
    tokensFrom cur (t ++ rest) = tokensFrom (cur ++ t) rest := by
  induction t generalizing cur with
  | nil => rw [List.nil_append, List.append_nil]
  | cons c cs ih =>
    obtain ⟨hc, hcs⟩ := List.forall_mem_cons.mp h
    rw [List.cons_append, tokensFrom, hc, if_neg Bool.false_ne_true, ih hcs, List.append_assoc, List.singleton_append]

/-- A separator ends the token before it. -/
theorem ReadsAs.tokensFrom_separator {t : List Char} {v : Byte} (h : ReadsAs t v) {c : Char} (hc : isSeparator c = true)
    (rest : List Char) : tokensFrom [] (t ++ c :: rest) = t :: tokensFrom [] rest := by
  rw [tokensFrom_append h.no_separator, List.nil_append, tokensFrom, if_pos hc, finishToken, if_neg h.ne_nil,
    List.singleton_append]

/-- The end of the line ends the token before it. -/
theorem ReadsAs.tokensFrom_end {t : List Char} {v : Byte} (h : ReadsAs t v) : tokensFrom [] t = [t] := by
  have hend := tokensFrom_append h.no_separator [] []
  rw [List.append_nil, List.nil_append] at hend
  rw [hend, tokensFrom, finishToken, if_neg h.ne_nil]

theorem ReadsAs.tokenBytes_cons {t : List Char} {v : Byte} (h : ReadsAs t v) {ts : List (List Char)} {vs : List Byte}
    (hts : tokenBytes ts = some vs) : tokenBytes (t :: ts) = some (v :: vs) := by
  rw [tokenBytes, h.byte, hts]

/-- A line that begins with a mnemonic is no comment. -/
theorem mnemonicLine_mnemonic (op : Op) (rest : List Char) :
    mnemonicLine (opMnemonic op ++ rest) = tokenBytes (tokensFrom [] (opMnemonic op ++ rest)) := by
  refine if_neg ?_
  cases op <;> simp [opMnemonic]

theorem mnemonicLine_noOperand (op : Op) : mnemonicLine (opMnemonic op) = some [op.row.code] := by
  have hline := mnemonicLine_mnemonic op []
  rw [List.append_nil, (mnemonic_readsAs op).tokensFrom_end] at hline
  exact hline.trans ((mnemonic_readsAs op).tokenBytes_cons rfl)

theorem mnemonicLine_oneOperand (op : Op) {t : List Char} {v : Byte} (h : ReadsAs t v) :
    mnemonicLine (opMnemonic op ++ [' '] ++ t) = some [op.row.code, v] := by
  rw [List.append_assoc, mnemonicLine_mnemonic, List.singleton_append, (mnemonic_readsAs op).tokensFrom_separator (by decide),
    h.tokensFrom_end]
  exact (mnemonic_readsAs op).tokenBytes_cons (h.tokenBytes_cons rfl)

theorem mnemonicLine_twoOperands (op : Op) {t u : List Char} {v w : Byte} (ht : ReadsAs t v) (hu : ReadsAs u w) :
    mnemonicLine (opMnemonic op ++ [' '] ++ t ++ [',', ' '] ++ u) = some [op.row.code, v, w] := by
  have htokens : tokensFrom [] (t ++ ([',', ' '] ++ u)) = [t, u] := by
    change tokensFrom [] (t ++ ',' :: ' ' :: u) = [t, u]
    rw [ht.tokensFrom_separator (by decide)]
    change t :: tokensFrom [] u = [t, u]
    rw [hu.tokensFrom_end]
  simp only [List.append_assoc]
  rw [mnemonicLine_mnemonic, List.singleton_append, (mnemonic_readsAs op).tokensFrom_separator (by decide), htokens]
  exact (mnemonic_readsAs op).tokenBytes_cons (ht.tokenBytes_cons (hu.tokenBytes_cons rfl))

/-- A register operand of a well-formed instruction has its token `R<d>`. -/
theorem Instr.registerText_readsAs {i : Instr} (hw : i.wellFormed = true) {r : Byte} (hr : r ∈ i.registerOperands) :
    ReadsAs (registerText r) r :=
  Machine.registerText_readsAs (of_decide_eq_true (List.all_eq_true.mp hw r hr))

/-- Settles O12, by the number of operands of the line. -/
theorem assemblyLineGivesTheEncodedBytes : Obligations.AssemblyLineGivesTheEncodedBytes := by
  intro i hw
  have reg {r : Byte} (hr : r ∈ i.registerOperands) : ReadsAs (registerText r) r := Instr.registerText_readsAs hw hr
  cases i with
  | hlt => exact mnemonicLine_noOperand .hlt
  | ret => exact mnemonicLine_noOperand .ret
  | prn r => exact mnemonicLine_oneOperand .prn (reg List.mem_cons_self)
  | push r => exact mnemonicLine_oneOperand .push (reg List.mem_cons_self)
  | pop r => exact mnemonicLine_oneOperand .pop (reg List.mem_cons_self)
  | call r => exact mnemonicLine_oneOperand .call (reg List.mem_cons_self)
  | ldi r imm => exact mnemonicLine_twoOperands .ldi (reg List.mem_cons_self) (decimalText_readsAs imm)
  | mul ra rb => exact mnemonicLine_twoOperands .mul (reg List.mem_cons_self) (reg (List.mem_cons_of_mem _ List.mem_cons_self))
  | add ra rb => exact mnemonicLine_twoOperands .add (reg List.mem_cons_self) (reg (List.mem_cons_of_mem _ List.mem_cons_self))

end Sys2Proof.Machine
end
